-- ==== Sys2Proof/Word.lean ====
section
/-! DEFINITION. The value types of the SM4 ECB core (spec/00_scope.md R6, R9): bytes, words, host-port addresses, and
groups of four like things. -/

namespace Sys2Proof

/-- R6: "A byte is 8 bits." -/
abbrev Byte := BitVec 8

/-- R6: "A word is 32 bits." -/
abbrev Word := BitVec 32

/-- 20_memory.md R50 (a): the host port has 18-bit byte addresses. -/
abbrev Addr := BitVec 18

/-- Four like things numbered 0 to 3: the key registers KEY0..KEY3, the windows K0..K3 and X0..X3, the constants FK,
the four words of a key or of a block (R6: "A key is 16 bytes (4 words). A block is 16 bytes (4 words)."). -/
structure Quad (α : Type) where
  w0 : α
  w1 : α
  w2 : α
  w3 : α
  deriving DecidableEq, Repr

end Sys2Proof
end

