-- ==== Sys2Proof/Machine/Packing.lean ====
section
/-! DEFINITION. Rotation and big-endian packing (spec/00_scope.md R10, R11; spec/20_memory.md R51). -/

namespace Sys2Proof.Machine

/-- R10: `rotl32(x, n)` for 0 ≤ n < 32. -/
def rotl32 (x : Word) (n : Nat) : Word := (x <<< n) ||| (x >>> (32 - n))

/-- R11: "makes a word from 4 bytes, with the first byte most significant". -/
def be32 (b0 b1 b2 b3 : Byte) : Word := b0 ++ b1 ++ b2 ++ b3

/-- R11: the four bytes of a word, most significant first. -/
def unbe32 (w : Word) : List Byte :=
  [w.extractLsb' 24 8, w.extractLsb' 16 8, w.extractLsb' 8 8, w.extractLsb' 0 8]

/-- Word i of a byte sequence: be32 of bytes 4i to 4i+3 (R11). Its domain is sequences that have these bytes; the 0
outside the domain is never reached by a command (log 15). -/
def wordAt (b : List Byte) (i : Nat) : Word :=
  be32 (b.getD (4 * i) 0) (b.getD (4 * i + 1) 0) (b.getD (4 * i + 2) 0) (b.getD (4 * i + 3) 0)

/-- R11: `words(b)`, the 4 words of a 16-byte sequence. -/
def words (b : List Byte) : Quad Word := ⟨wordAt b 0, wordAt b 1, wordAt b 2, wordAt b 3⟩

/-- R11: `bytes(w0, w1, w2, w3)`. -/
def bytes (w : Quad Word) : List Byte := unbe32 w.w0 ++ unbe32 w.w1 ++ unbe32 w.w2 ++ unbe32 w.w3

/-- The shift every round makes on a four-word window: `(x0,x1,x2,x3) := (x1,x2,x3,new)` (R124, R171). -/
def shiftIn (q : Quad Word) (new : Word) : Quad Word := ⟨q.w1, q.w2, q.w3, new⟩

/-- Member j of four (j = 0 to 3). -/
def quadGet {α : Type} (q : Quad α) (j : Fin 4) : α :=
  match j with
  | 0 => q.w0
  | 1 => q.w1
  | 2 => q.w2
  | 3 => q.w3

/-- The four with member j replaced. -/
def quadSet {α : Type} (q : Quad α) (j : Fin 4) (a : α) : Quad α :=
  match j with
  | 0 => { q with w0 := a }
  | 1 => { q with w1 := a }
  | 2 => { q with w2 := a }
  | 3 => { q with w3 := a }

end Sys2Proof.Machine
end

