-- ==== Sys2Proof/Machine/Sbox.lean ====
section
/-! DEFINITION. The S-box ROM and the substitution layer τ (spec/40_sbox.md R100 to R103). -/

namespace Sys2Proof.Machine

/-- SBOX_TABLE: the contents of the S-box ROM, row by row as R101 prints them for machine transcription: row r holds
entries 16r to 16r+15, the first most significant. The values are the spec's, from general knowledge (log 14). -/
def sboxRows : List (BitVec 128) :=
  [0xD690E9FECCE13DB716B614C228FB2C05#128,
   0x2B679A762ABE04C3AA44132649860699#128,
   0x9C4250F491EF987A33540B43EDCFAC62#128,
   0xE4B31CA9C908E89580DF94FA758F3FA6#128,
   0x4707A7FCF37317BA83593C19E6854FA8#128,
   0x686B81B27164DA8BF8EB0F4B70569D35#128,
   0x1E240E5E6358D1A225227C3B01217887#128,
   0xD40046579FD327524C3602E7A0C4C89E#128,
   0xEABF8AD240C738B5A3F7F2CEF96115A1#128,
   0xE0AE5DA49B341A55AD933230F58CB1E3#128,
   0x1DF6E22E8266CA60C02923AB0D534E6F#128,
   0xD5DB3745DEFD8E2F03FF6A726D6C5B51#128,
   0x8D1BAF92BBDDBC7F11D95C411F105AD8#128,
   0x0AC13188A5CD7BBD2D74D012B8E5B4B0#128,
   0x8969974A0C96777E65B9F109C56EC684#128,
   0x18F07DEC3ADC4D2079EE5F3ED7CB3948#128]

/-- R100: `Sbox(b) = SBOX[b]`. R101: "Row = b[7:4], column = b[3:0]". -/
def sbox (b : Byte) : Byte :=
  ((sboxRows.getD (b.extractLsb' 4 4).toNat 0#128) >>> (8 * (15 - (b.extractLsb' 0 4).toNat))).setWidth 8

/-- R103: Sbox on each of the 4 bytes of a word, recombined big-endian. -/
def tau (a : Word) : Word :=
  be32 (sbox (a.extractLsb' 24 8)) (sbox (a.extractLsb' 16 8)) (sbox (a.extractLsb' 8 8)) (sbox (a.extractLsb' 0 8))

end Sys2Proof.Machine
end

