-- ==== Sys2Proof/Machine/RoundFunction.lean ====
section
/-! DEFINITION. The data-path linear transform L and the round function T (spec/42_round_function.md R150, R151). -/

namespace Sys2Proof.Machine

/-- R150: the data-path linear transform. -/
def transL (x : Word) : Word := x ^^^ rotl32 x 2 ^^^ rotl32 x 10 ^^^ rotl32 x 18 ^^^ rotl32 x 24

/-- R151: T = L∘τ. -/
def transT (x : Word) : Word := transL (tau x)

end Sys2Proof.Machine
end

