-- ==== Sys2Proof/Machine/Feistel.lean ====
section
/-! DEFINITION. The 32-round Feistel engine as a function (spec/43_block_cipher.md R170 to R172). -/

namespace Sys2Proof.Machine

/-- R171: the word one round derives. -/
def nextBlockWord (x : Quad Word) (rk : Word) : Word := x.w0 ^^^ transT (x.w1 ^^^ x.w2 ^^^ x.w3 ^^^ rk)

/-- R171: one Feistel round. -/
def feistelRound (x : Quad Word) (rk : Word) : Quad Word := shiftIn x (nextBlockWord x rk)

/-- R172: the four words in reverse order `(x3,x2,x1,x0)`. -/
def reverseWindow (x : Quad Word) : Quad Word := ⟨x.w3, x.w2, x.w1, x.w0⟩

/-- R170: one round per round key, in the order given, then the output reversal of R172. -/
def processBlock (block : List Byte) (rks : List Word) : List Byte :=
  bytes (reverseWindow (rks.foldl feistelRound (words block)))

end Sys2Proof.Machine
end

