-- ==== Sys2Proof/Machine/KeySchedule.lean ====
section
/-! DEFINITION. The system constants, the key-schedule transforms and key expansion (spec/41_key_schedule.md R120 to
R124). -/

namespace Sys2Proof.Machine

/-- FK_TABLE (R120), the system parameter (log 14). -/
def fkTable : Quad Word := ⟨0xA3B1BAC6#32, 0x56AA3350#32, 0x677D9197#32, 0xB27022DC#32⟩

/-- CK_TABLE (R121), as the rule's table writes it out (log 14). -/
def ckTable : List Word :=
  [0x00070E15#32, 0x1C232A31#32, 0x383F464D#32, 0x545B6269#32, 0x70777E85#32, 0x8C939AA1#32, 0xA8AFB6BD#32, 0xC4CBD2D9#32] ++
  [0xE0E7EEF5#32, 0xFC030A11#32, 0x181F262D#32, 0x343B4249#32, 0x50575E65#32, 0x6C737A81#32, 0x888F969D#32, 0xA4ABB2B9#32] ++
  [0xC0C7CED5#32, 0xDCE3EAF1#32, 0xF8FF060D#32, 0x141B2229#32, 0x30373E45#32, 0x4C535A61#32, 0x686F767D#32, 0x848B9299#32] ++
  [0xA0A7AEB5#32, 0xBCC3CAD1#32, 0xD8DFE6ED#32, 0xF4FB0209#32, 0x10171E25#32, 0x2C333A41#32, 0x484F565D#32, 0x646B7279#32]

/-- R122: the source's L′. -/
def transLp (s : Word) : Word := s ^^^ rotl32 s 13 ^^^ rotl32 s 23

/-- R123: T′ = L′∘τ, τ first. -/
def transTp (t : Word) : Word := transLp (tau t)

/-- R124: `k[j] <- MK[j] ⊕ FK[j]`. -/
def initialKeyWindow (key : List Byte) : Quad Word :=
  let mk := words key
  ⟨mk.w0 ^^^ fkTable.w0, mk.w1 ^^^ fkTable.w1, mk.w2 ^^^ fkTable.w2, mk.w3 ^^^ fkTable.w3⟩

/-- R124: the word one round derives from the window k[i..i+3] and CK[i]. -/
def nextKeyWord (k : Quad Word) (ck : Word) : Word := k.w0 ^^^ transTp (k.w1 ^^^ k.w2 ^^^ k.w3 ^^^ ck)

/-- R124: the loop over the round constants, one round key per constant, in derivation order. -/
def expandFrom (k : Quad Word) : List Word → List Word
  | [] => []
  | ck :: cks => nextKeyWord k ck :: expandFrom (shiftIn k (nextKeyWord k ck)) cks

/-- R124: `expand`, the 32 round keys of a 16-byte key. -/
def expand (key : List Byte) : List Word := expandFrom (initialKeyWindow key) ckTable

end Sys2Proof.Machine
end

