-- ==== Sys2Proof/Config.lean ====
section
/-! DEFINITION. What one implementation fixes, and the free values: the draws "under no law" of spec/10_state.md R41.
A free value is an opaque constant with no body, applied to the number of the draw (State.draws) and, where one draw
covers several items, to the item's own number. Nothing can be proved of its value. -/

namespace Sys2Proof.Config

/-- The N_IN of the instance that State.reset describes (00_scope.md R7: a multiple of 16, 112 to 65520). DESIGN CHOICE
(log 1): the smallest legal one. State carries N_IN as a value of its own, and no statement rests on 112. -/
def nInAtReset : Nat := 112

/-- What KEYj holds after a reset and until the host writes it (R36: "a draw"; 93_implementation_defined.md U5); arguments:
the draw that reset took, j. -/
opaque resetKeyWord : Nat → Nat → Word

/-- What IN[i] holds after a reset and until the host writes it (R37, 93_implementation_defined.md U6); arguments: the draw
that reset took, i. -/
opaque resetInByte : Nat → Nat → Byte

/-- The value a host read of an unspecified OUT_BUF byte returns (R38); argument: draw. -/
opaque freeOutByte : Nat → Byte

/-- The value a host read of RESULT returns while BUSY = 1 (R34); argument: draw. -/
opaque freeResult : Nat → Word

/-- The value a host read of OUT_LEN returns while BUSY = 1 (R32); argument: draw. -/
opaque freeOutLen : Nat → Word

/-- An internal datapath word (K, X, RK) whose content is unspecified (R21 to R23); arguments: draw, which word. -/
opaque freeDatapathWord : Nat → Nat → Word

/-- An internal round counter whose content is unspecified (R24); arguments: draw, which counter. -/
opaque freeRoundCounter : Nat → Nat → Fin 32

/-- The internal block index when its content is unspecified (R24); argument: draw. -/
opaque freeBlockIndex : Nat → Nat

end Sys2Proof.Config
end

