-- ==== Sys2Proof/Syntax.lean ====
section
/-! DEFINITION. The commands of the core: one constructor per row of spec/opcode_table.json (spec/30_encoding.md R72).
A command carries no operands (R70: "The command word carries no other field"). -/

namespace Sys2Proof

/-- The eleven commands of R72. -/
inductive Instr where
  | sbox        -- SBOX, 0x01, 40_sbox.md R104
  | tau         -- TAU, 0x02, 40_sbox.md R105
  | linLp       -- LIN_LP, 0x11, 41_key_schedule.md R127
  | tKey        -- T_KEY, 0x12, 41_key_schedule.md R128
  | keyExpand   -- KEY_EXPAND, 0x13, 41_key_schedule.md R129
  | linL        -- LIN_L, 0x21, 42_round_function.md R152
  | tRound      -- T_ROUND, 0x22, 42_round_function.md R153
  | blockFwd    -- BLOCK_FWD, 0x31, 43_block_cipher.md R175
  | blockRev    -- BLOCK_REV, 0x32, 43_block_cipher.md R176
  | ecbEnc      -- ECB_ENC, 0x41, 44_ecb_codec.md R199
  | ecbDec      -- ECB_DEC, 0x42, 44_ecb_codec.md R200
  deriving DecidableEq, Repr

end Sys2Proof
end

