-- ==== Sys2Proof/WellFormed.lean ====
section
/-! DEFINITION. When the fields of a CMD32 word are well formed (spec/30_encoding.md R70, R71, R73). An Instr has no
operand, so every Instr is well formed as it stands; what can be ill formed is a command word, as its three fields. -/

namespace Sys2Proof

/-- The format CMD32 of R70: [31:8] RSV, [7:4] FAMILY, [3:0] FUNCT. -/
structure CmdFields where
  rsv    : BitVec 24
  family : BitVec 4
  funct  : BitVec 4
  deriving DecidableEq, Repr

/-- How many functions a family has; they are numbered from 1 (R72). Families 0x5 to 0xF have none (R73). -/
def functionsOfFamily (family : BitVec 4) : Nat :=
  if family = 0x0#4 then 2        -- S-box: SBOX, TAU
  else if family = 0x1#4 then 3   -- key schedule: LIN_LP, T_KEY, KEY_EXPAND
  else if family = 0x2#4 then 2   -- round function: LIN_L, T_ROUND
  else if family = 0x3#4 then 2   -- block cipher: BLOCK_FWD, BLOCK_REV
  else if family = 0x4#4 then 2   -- ECB codec: ECB_ENC, ECB_DEC
  else 0

/-- R70: "reserved; must be 0". -/
def CmdFields.rsvOk (f : CmdFields) : Bool := f.rsv == 0#24

/-- R71, R72: FAMILY and FUNCT name one of the eleven commands. -/
def CmdFields.opcodeAssigned (f : CmdFields) : Bool :=
  1 ≤ f.funct.toNat && f.funct.toNat ≤ functionsOfFamily f.family

/-- R71: a command word is legal iff its reserved bits are 0 and its opcode is assigned. -/
def CmdFields.wf (f : CmdFields) : Bool := f.rsvOk && f.opcodeAssigned

end Sys2Proof
end

