-- ==== Sys2Proof/Decode.lean ====
section
/-! DEFINITION. Decoding and encoding of command words (spec/30_encoding.md R70 to R73). Decoding reads only the word
(R71) and is total: a word that names no command is rejected by name. -/

namespace Sys2Proof

/-- Why a command word names no command (R73). Both kinds complete with IllegalCommand. -/
inductive DecodeReject where
  | reservedBits      -- v[31:8] ≠ 0
  | unassignedOpcode  -- v[31:8] = 0 and v[7:0] is none of the eleven opcodes
  deriving DecidableEq, Repr

/-- OPCODE = v[7:0] (R70). -/
def opcodeField (v : Word) : Byte := v.extractLsb' 0 8

/-- The three fields of a command word (R70). -/
def cmdFields (v : Word) : CmdFields :=
  { rsv := v.extractLsb' 8 24, family := v.extractLsb' 4 4, funct := v.extractLsb' 0 4 }

/-- The opcode map of R72, in its order. -/
def opcodeMap : List (Byte × Instr) :=
  [(0x01#8, .sbox), (0x02#8, .tau),
   (0x11#8, .linLp), (0x12#8, .tKey), (0x13#8, .keyExpand),
   (0x21#8, .linL), (0x22#8, .tRound),
   (0x31#8, .blockFwd), (0x32#8, .blockRev),
   (0x41#8, .ecbEnc), (0x42#8, .ecbDec)]

/-- R71, R73: the command a word names, or why it names none. -/
def decode (v : Word) : Except DecodeReject Instr :=
  if v.extractLsb' 8 24 ≠ 0#24 then .error .reservedBits
  else
    match opcodeMap.lookup (opcodeField v) with
    | some i => .ok i
    | none => .error .unassignedOpcode

/-- The opcode of a command, from the rows of R72. -/
def opcodeOf : Instr → Byte
  | .sbox => 0x01#8
  | .tau => 0x02#8
  | .linLp => 0x11#8
  | .tKey => 0x12#8
  | .keyExpand => 0x13#8
  | .linL => 0x21#8
  | .tRound => 0x22#8
  | .blockFwd => 0x31#8
  | .blockRev => 0x32#8
  | .ecbEnc => 0x41#8
  | .ecbDec => 0x42#8

/-- R72: "A command word selects one of these rows iff v = zext_32(OPCODE)". -/
def encode (i : Instr) : Word := (opcodeOf i).setWidth 32

/-- The command in the low nbits bits of w, as spec/opcode_table.json numbers them: the 32-bit value of one CMD write
(R70; R52: no byte lanes). -/
def decodeTableWord (nbits w : Nat) : Option Instr :=
  match decode (BitVec.ofNat 32 (w % 2 ^ nbits)) with
  | .ok i => some i
  | .error _ => none

end Sys2Proof
end

