-- ==== Sys2Proof/Machine/State.lean ====
section
/-! DEFINITION. The machine's state (spec/10_state.md R41, with the snapshot of R26, the datapath of R21 to R24 and
the reset input of 70_reset_and_hazards.md R250), the reasons a step can stop, and reset. -/

namespace Sys2Proof.Machine

/-- STATUS, by its fields (R29, R41). The reserved bits are hardwired 0 and hold nothing. -/
structure Status where
  busy    : Bool
  done    : Bool
  err     : Bool
  errcode : BitVec 4
  opcode  : Byte
  deriving DecidableEq, Repr

/-- One key register KEYj (R36): what it holds, and whether the host has written it since reset. While `written` is false,
R41's `none` stands and the value is the draw that reset took for it (93_implementation_defined.md U5). -/
structure KeyWord where
  value   : Word
  written : Bool
  deriving DecidableEq, Repr

/-- A buffer: the bytes that hold a specified value, by index, indices strictly rising (Memory.wf). An index that is not
listed has no specified value (R41's `none`): in IN_BUF it holds the draw of the latest reset (93_implementation_defined.md
U6), in OUT_BUF every read of it is a fresh draw (U7). -/
abbrev Memory := List Host.Cell

/-- The snapshot S of R26 and R78, held while a command is in flight. -/
structure Snapshot where
  cmd    : Word
  key    : Quad KeyWord
  keyLen : Byte
  inLen  : Word
  arg    : Word
  inBuf  : Memory
  resetDraw : Nat   -- which draw the bytes of IN_BUF that are not listed hold
  deriving DecidableEq, Repr

/-- The internal datapath: the windows K and X, the round-key file RK and the sequencing counters (R21 to R24). -/
structure Datapath where
  k            : Quad Word
  x            : Quad Word
  rk           : Vector Word 32
  keyRound     : Fin 32
  feistelRound : Fin 32
  blockIndex   : Nat
  deriving DecidableEq, Repr

/-- One host access, the tuple (dir, addr, size, data) of 30_encoding.md R83: R32, W32, R8, W8. -/
inductive HostAccess where
  | read32  (addr : Addr)
  | write32 (addr : Addr) (data : Word)
  | read8   (addr : Addr)
  | write8  (addr : Addr) (data : Byte)
  deriving DecidableEq, Repr

/-- What the port answers to a read: a 32-bit or an 8-bit value (R83, R87 (a)). -/
inductive ReadData where
  | word (w : Word)
  | byte (b : Byte)
  deriving DecidableEq, Repr

/-- One turn of a run (log 6): which agent moves, or a change of the reset input. -/
inductive Turn where
  | coreWork               -- a core step in which the command in flight, if any, does not complete yet
  | coreDone               -- a core step in which the command in flight, if any, completes (R79)
  | access (a : HostAccess)
  | resetPin (level : Bool)
  deriving DecidableEq, Repr

structure State where
  status   : Status
  keyLen   : Byte            -- KEY_LEN[7:0], R30
  inLen    : Word            -- R31
  outLen   : Word            -- R32
  arg      : Word            -- R33
  result   : Word            -- R34
  key      : Quad KeyWord    -- KEY0..KEY3, R36
  inBuf    : Memory          -- IN_BUF, R37
  outBuf   : Memory          -- OUT_BUF, R38
  fault    : Bool            -- a protocol fault has happened, R41, R230
  inflight : Option Snapshot -- S, while a command is in flight, R26
  datapath : Datapath        -- R21 to R24
  rst      : Bool            -- the reset input is asserted, R250
  inputs   : List Turn       -- the turns still to come, the model's own (log 6)
  readData : Option ReadData -- the answer to the host's latest read, the model's own (log 13)
  draws    : Nat             -- draws taken so far, the model's own (log 5)
  resetDraw : Nat            -- the draw the latest reset took, the model's own (logs 2, 3)
  nIn      : Nat             -- the parameter N_IN of R7, the model's own (log 1)
  deriving DecidableEq, Repr

/-- Why a step, or a meaning, stops. -/
inductive Fault where
  /-- Raised by step when the fault mark is set and the next turn is not a change of the reset input: R230 gives a run
  no meaning after a protocol fault. Safe: no claim about such a run can be proved (log 8). -/
  | protocolFault
  /-- Raised by a meaning that is asked to complete a command while none is in flight: R79 enables completion only while
  BUSY = 1. step never does so. Safe (log 10). -/
  | noCommandInFlight
  deriving DecidableEq, Repr

/-- Why an instruction has no meaning. -/
inductive Refusal where
  /-- Raised by exec for an instruction that is not modelled yet, by name; safe. No arm of exec raises it. -/
  | notModelled (mnemonic : String)
  deriving DecidableEq, Repr

/-- The internal datapath with every content unspecified, as draw n gives it (R21 to R24, log 11). -/
def Datapath.drawn (n : Nat) : Datapath where
  k := ⟨Config.freeDatapathWord n 0, Config.freeDatapathWord n 1, Config.freeDatapathWord n 2, Config.freeDatapathWord n 3⟩
  x := ⟨Config.freeDatapathWord n 4, Config.freeDatapathWord n 5, Config.freeDatapathWord n 6, Config.freeDatapathWord n 7⟩
  rk := Vector.ofFn fun i => Config.freeDatapathWord n (8 + i.val)
  keyRound := Config.freeRoundCounter n 0
  feistelRound := Config.freeRoundCounter n 1
  blockIndex := Config.freeBlockIndex n

/-- KEYj from the reset that takes draw n until the host writes it: an unspecified value, not written (R36, R40, log 2). -/
def KeyWord.unwritten (n j : Nat) : KeyWord := ⟨Config.resetKeyWord n j, false⟩

/-- The reset table of R40, for the reset that takes draw 0. -/
def State.reset : State where
  status := ⟨false, false, false, 0#4, 0x00#8⟩
  keyLen := 0#8
  inLen := 0#32
  outLen := 0#32
  arg := 0#32
  result := 0#32
  key := ⟨.unwritten 0 0, .unwritten 0 1, .unwritten 0 2, .unwritten 0 3⟩
  inBuf := []
  outBuf := []
  fault := false
  inflight := none
  datapath := .drawn 0
  rst := false
  inputs := []
  readData := none
  draws := 1
  resetDraw := 0
  nIn := Config.nInAtReset

end Sys2Proof.Machine
end

