-- ==== Sys2Proof/Machine/Flags.lean ====
section
/-! DEFINITION. STATUS and the error codes (spec/10_state.md R29, spec/60_exceptions.md R220): every flag the core has,
and the only two ways a command writes them, issue and completion. -/

namespace Sys2Proof.Machine

/-- The errors a command can report (R220). -/
inductive CmdError where
  | invalidKeyLength
  | invalidCiphertextLength
  | invalidPadding
  | inputLengthRange
  | illegalCommand
  deriving DecidableEq, Repr

/-- The code STATUS.ERRCODE reports (R220). -/
def errCode : CmdError → BitVec 4
  | .invalidKeyLength => 1#4
  | .invalidCiphertextLength => 2#4
  | .invalidPadding => 3#4
  | .inputLengthRange => 4#4
  | .illegalCommand => 5#4

/-- ERRCODE at completion: the code of the error, 0 when there is none (R79, R220). -/
def errCodeField : Option CmdError → BitVec 4
  | none => 0#4
  | some e => errCode e

/-- STATUS at issue (R78). -/
def Status.issued (opcode : Byte) : Status := ⟨true, false, false, 0#4, opcode⟩

/-- STATUS at completion (R79); the error is none on success. -/
def Status.completed (e : Option CmdError) (opcode : Byte) : Status :=
  ⟨false, true, e.isSome, errCodeField e, opcode⟩

/-- The 32-bit value a host read of STATUS returns (R29): reserved bits [31:24], [15:12] and [7:3] are 0. -/
def Status.toWord (st : Status) : Word :=
  0#8 ++ st.opcode ++ 0#4 ++ st.errcode ++ 0#5 ++ BitVec.ofBool st.err ++ BitVec.ofBool st.done ++ BitVec.ofBool st.busy

/-- The legal combinations of R29: (BUSY, DONE, ERR) is (0,0,0), (1,0,0), (0,1,0) or (0,1,1), and ERRCODE is nonzero
exactly when ERR = 1. -/
def Status.legal (st : Status) : Bool :=
  (match st.busy, st.done, st.err with
    | false, false, false => true
    | true, false, false => true
    | false, true, false => true
    | false, true, true => true
    | _, _, _ => false)
  && (st.err == (st.errcode != 0#4)) && (st.errcode.toNat ≤ 5)

end Sys2Proof.Machine
end

