-- ==== Sys2Proof/Machine/Operands.lean ====
section
/-! DEFINITION. The operand forms of the commands (spec/30_encoding.md R74 to R77), read from the snapshot S of the
command in flight. An item that the host has not written since reset holds the draw of that reset (spec/10_state.md R41,
spec/93_implementation_defined.md U5, U6). -/

namespace Sys2Proof.Machine

/-- The byte a buffer holds at an index; none where it holds no specified value. -/
def Memory.read : Memory → Nat → Option Byte
  | [], _ => none
  | (a, b) :: m, i => if a = i then some b else Memory.read m i

/-- R75: the word commands; every other command is a buffer command. -/
def isWordCommand : Instr → Bool
  | .sbox | .tau | .linLp | .tKey | .linL | .tRound => true
  | .keyExpand | .blockFwd | .blockRev | .ecbEnc | .ecbDec => false

/-- The opcode bits of the command word in flight (R26, R78). -/
def Snapshot.opcode (S : Snapshot) : Byte := opcodeField S.cmd

/-- A check that raises an error when it fails (60_exceptions.md R221). -/
def require (ok : Bool) (e : CmdError) : Except CmdError Unit := if ok then .ok () else .error e

/-- The four key words MK[0..3] a command sees: what the key registers held at issue, written by the host or drawn at reset
(R36, R41, 93_implementation_defined.md U5). -/
def keyWords (S : Snapshot) : Quad Word := ⟨S.key.w0.value, S.key.w1.value, S.key.w2.value, S.key.w3.value⟩

/-- R76, GetKey: the 16-byte key, or InvalidKeyLength. -/
def getKey (S : Snapshot) : Except CmdError (List Byte) := do
  require (S.keyLen == 16#8) .invalidKeyLength
  pure (bytes (keyWords S))

/-- What IN[i] holds: its specified value, or the draw of the reset numbered resetDraw until the host writes it (R37, R41,
93_implementation_defined.md U6). -/
def inputByteAt (resetDraw : Nat) (m : Memory) (i : Nat) : Byte := (m.read i).getD (Config.resetInByte resetDraw i)

/-- IN[i] as the command sees it. -/
def inputByte (S : Snapshot) (i : Nat) : Byte := inputByteAt S.resetDraw S.inBuf i

/-- The bytes IN[0..IN_LEN) as the command sees them (R77). -/
def inputBytes (S : Snapshot) : List Byte := (List.range S.inLen.toNat).map (inputByte S)

/-- R77, GetInput: the bytes IN[0..IN_LEN), or InputLengthRange when IN_LEN > N_IN. -/
def getInput (nIn : Nat) (S : Snapshot) : Except CmdError (List Byte) := do
  require (S.inLen.toNat ≤ nIn) .inputLengthRange
  pure (inputBytes S)

end Sys2Proof.Machine
end

