-- ==== Sys2Proof/Machine/Ops.lean ====
section
/-! DEFINITION. The named operations over buffers and registers: buffer access, issue (spec/30_encoding.md R78),
completion (R79), raising an error (spec/60_exceptions.md R221), the fault mark (R230) and reset (spec/10_state.md R40,
spec/70_reset_and_hazards.md R250). -/

namespace Sys2Proof.Machine

/-- The buffer with byte i holding v. -/
def Memory.write : Memory → Nat → Byte → Memory
  | [], i, v => [(i, v)]
  | (a, b) :: m, i, v =>
    if i < a then (i, v) :: (a, b) :: m
    else if a = i then (i, v) :: m
    else (a, b) :: Memory.write m i v

/-- The buffer whose bytes from index i on are the given ones and that holds no other specified value. -/
def Memory.ofBytesFrom : Nat → List Byte → Memory
  | _, [] => []
  | i, b :: bs => (i, b) :: Memory.ofBytesFrom (i + 1) bs

/-- R79: OUT[i] is b[i] for i < len(b), and unspecified elsewhere. -/
def Memory.ofBytes (b : List Byte) : Memory := Memory.ofBytesFrom 0 b

/-- The indices of a buffer's entries rise strictly, starting at or above i. -/
def Memory.wfFrom : Nat → Memory → Bool
  | _, [] => true
  | i, (a, _) :: m => i ≤ a && Memory.wfFrom (a + 1) m

/-- The canonical form of a buffer: indices strictly rising. An unlisted index has no specified value, and every entry is
one, so no entry equals what an unlisted index reads as. -/
def Memory.wf (m : Memory) : Bool := Memory.wfFrom 0 m

/-- Every entry's index is below n. -/
def Memory.below (n : Nat) (m : Memory) : Bool := m.all fun c => c.1 < n

/-- The snapshot a command word takes at issue (R78). -/
def State.snapshot (s : State) (cmd : Word) : Snapshot :=
  { cmd := cmd, key := s.key, keyLen := s.keyLen, inLen := s.inLen, arg := s.arg, inBuf := s.inBuf,
    resetDraw := s.resetDraw }

/-- R78: issue of the command word v. It also clears ERR, ERRCODE and DONE, the only "return" from an error (R227). -/
def State.issue (s : State) (v : Word) : State :=
  { s with status := .issued (opcodeField v), inflight := some (s.snapshot v) }

/-- What every completion does (R79): STATUS, the command leaves the core, and the datapath's contents become
unspecified (R21 to R24). -/
def State.retire (s : State) (S : Snapshot) (e : Option CmdError) : State :=
  { s with status := .completed e S.opcode, inflight := none, datapath := .drawn s.draws, draws := s.draws + 1 }

/-- R79, `WordOk(w)`: RESULT takes w. -/
def State.finishWord (s : State) (S : Snapshot) (w : Word) : State :=
  { s.retire S none with result := w }

/-- R79, `BufOk(b)`: OUT_LEN and OUT_BUF take the length and the bytes of b. -/
def State.finishBuffer (s : State) (S : Snapshot) (b : List Byte) : State :=
  { s.retire S none with outLen := BitVec.ofNat 32 b.length, outBuf := .ofBytes b }

/-- R221: an error ends a buffer command: OUT_LEN becomes 0 and every OUT_BUF byte unspecified. -/
def State.raiseError (s : State) (S : Snapshot) (e : CmdError) : State :=
  { s.retire S (some e) with outLen := 0#32, outBuf := [] }

/-- R73: an illegal command word completes with IllegalCommand and changes no register other than STATUS. -/
def State.finishIllegal (s : State) (S : Snapshot) : State := s.retire S (some .illegalCommand)

/-- Completion of a word command whose function of the snapshot is f (R80). -/
def completeWord (f : Snapshot → Word) (s : State) : Host.Outcome State Fault Refusal :=
  match s.inflight with
  | none => .fault .noCommandInFlight
  | some S => .next (s.finishWord S (f S))

/-- Completion of a buffer command whose function of the snapshot is f (R81). -/
def completeBuffer (f : Snapshot → Except CmdError (List Byte)) (s : State) : Host.Outcome State Fault Refusal :=
  match s.inflight with
  | none => .fault .noCommandInFlight
  | some S =>
    match f S with
    | .ok b => .next (s.finishBuffer S b)
    | .error e => .next (s.raiseError S e)

/-- R230: the fault mark is set; the access has no other effect. -/
def State.markFault (s : State) : State := { s with fault := true }

/-- The host port answers a read. -/
def State.answer (s : State) (d : ReadData) : State := { s with readData := some d }

/-- The host port answers a read with an unspecified value, which takes a draw. -/
def State.answerDrawn (s : State) (d : ReadData) : State := { s with readData := some d, draws := s.draws + 1 }

/-- A reset (R40, R250): the reset table, with the unspecified items drawn; the command in flight is gone (R251). N_IN,
the turns to come and the count of draws are no state of the core's and stay. -/
def State.resetCore (s : State) : State :=
  { State.reset with
    key := ⟨.unwritten s.draws 0, .unwritten s.draws 1, .unwritten s.draws 2, .unwritten s.draws 3⟩
    datapath := .drawn s.draws
    draws := s.draws + 1
    resetDraw := s.draws
    inputs := s.inputs
    nIn := s.nIn }

/-- The reset input takes a level (R250, log 9). Asserting it puts the core in the reset state, with the input asserted;
deasserting it leaves the core there, waiting for a CMD write; a level it has already changes nothing. -/
def State.drivePin (s : State) (level : Bool) : State :=
  if level = s.rst then s
  else if level then { s.resetCore with rst := true }
  else { s with rst := false }

end Sys2Proof.Machine
end

