-- ==== Sys2Proof/Machine/BlockFamily.lean ====
section
/-! DEFINITION. Family 0x3, the block cipher: BLOCK_FWD and BLOCK_REV (spec/43_block_cipher.md R175, R176). -/

namespace Sys2Proof.Machine

/-- R175, ExecBLOCK_FWD: the input range, the exact length, the key, in this order (R224). -/
def blockFwdResult (nIn : Nat) (S : Snapshot) : Except CmdError (List Byte) := do
  let p ← getInput nIn S
  require (p.length == 16) .inputLengthRange
  let key ← getKey S
  pure (processBlock p (expand key))

/-- R176, ExecBLOCK_REV: as BLOCK_FWD with the schedule reversed; no padding check. -/
def blockRevResult (nIn : Nat) (S : Snapshot) : Except CmdError (List Byte) := do
  let p ← getInput nIn S
  require (p.length == 16) .inputLengthRange
  let key ← getKey S
  pure (processBlock p (expand key).reverse)

/-- BLOCK_FWD, R175. -/
def execBlockFwd (s : State) : Host.Outcome State Fault Refusal := completeBuffer (blockFwdResult s.nIn) s

/-- BLOCK_REV, R176. -/
def execBlockRev (s : State) : Host.Outcome State Fault Refusal := completeBuffer (blockRevResult s.nIn) s

end Sys2Proof.Machine
end

