-- ==== Sys2Proof/Machine/Codec.lean ====
section
/-! DEFINITION. Padding, splitting, joining, ECB encryption and decryption (spec/44_ecb_codec.md R190 to R196). -/

namespace Sys2Proof.Machine

/-- R190: `n <- 16 − (len(p) mod 16)`. -/
def padLength (p : List Byte) : Nat := 16 - p.length % 16

/-- R190: PKCS#7 padding, n copies of the byte value n appended. -/
def pad (p : List Byte) : List Byte := p ++ List.replicate (padLength p) (BitVec.ofNat 8 (padLength p))

/-- R191: `split(q)[j] = q[16j .. 16j+16)`. -/
def blockAt (q : List Byte) (j : Nat) : List Byte := (q.drop (16 * j)).take 16

/-- R191: the consecutive 16-byte blocks of a buffer. -/
def split (q : List Byte) : List (List Byte) := (List.range (q.length / 16)).map (blockAt q)

/-- R192: the blocks in block order, concatenated. -/
def join (blocks : List (List Byte)) : List Byte := blocks.flatten

/-- R193, R195: every block through the Feistel engine under one schedule (R197: independently). -/
def processBlocks (rks : List Word) (q : List Byte) : List Byte :=
  join ((split q).map fun b => processBlock b rks)

/-- R193. -/
def encrypt (p key : List Byte) : List Byte := processBlocks (expand key) (pad p)

/-- R195: the last byte of the decryption pass, read as the pad length. Its domain is non-empty sequences. -/
def lastByte (q : List Byte) : Nat := (q.getD (q.length - 1) 0).toNat

/-- R194: a ciphertext's length is positive and a multiple of 16. -/
def cipherLengthOk (c : List Byte) : Bool := c.length != 0 && c.length % 16 == 0

/-- R195, R196: the final byte is 1 to 16 (the lenient check); then it says how many bytes are stripped. -/
def stripPad (q : List Byte) : Except CmdError (List Byte) := do
  require (1 ≤ lastByte q && lastByte q ≤ 16) .invalidPadding
  pure (q.take (q.length - lastByte q))

/-- R195. -/
def decrypt (c key : List Byte) : Except CmdError (List Byte) := do
  require (cipherLengthOk c) .invalidCiphertextLength
  stripPad (processBlocks (expand key).reverse c)

end Sys2Proof.Machine
end

