-- ==== Sys2Proof/Machine/EcbFamily.lean ====
section
/-! DEFINITION. Family 0x4, the ECB codec: ECB_ENC and ECB_DEC (spec/44_ecb_codec.md R199, R200). -/

namespace Sys2Proof.Machine

/-- R199, ExecECB_ENC: the input range, the key, in this order (R224). -/
def ecbEncResult (nIn : Nat) (S : Snapshot) : Except CmdError (List Byte) := do
  let p ← getInput nIn S
  let key ← getKey S
  pure (encrypt p key)

/-- R200, ExecECB_DEC: the input range, the ciphertext length, the key, the padding, in this order (R224). -/
def ecbDecResult (nIn : Nat) (S : Snapshot) : Except CmdError (List Byte) := do
  let c ← getInput nIn S
  require (cipherLengthOk c) .invalidCiphertextLength
  let key ← getKey S
  decrypt c key

/-- ECB_ENC, R199. -/
def execEcbEnc (s : State) : Host.Outcome State Fault Refusal := completeBuffer (ecbEncResult s.nIn) s

/-- ECB_DEC, R200. -/
def execEcbDec (s : State) : Host.Outcome State Fault Refusal := completeBuffer (ecbDecResult s.nIn) s

end Sys2Proof.Machine
end

