-- ==== Sys2Proof/Machine/KeyFamily.lean ====
section
/-! DEFINITION. Family 0x1, the key schedule: LIN_LP, T_KEY and KEY_EXPAND (spec/41_key_schedule.md R127 to R129). -/

namespace Sys2Proof.Machine

/-- LIN_LP, R127: `ExecLIN_LP(S) = WordOk(Lp(S.arg))`. -/
def execLinLp (s : State) : Host.Outcome State Fault Refusal := completeWord (fun S => transLp S.arg) s

/-- T_KEY, R128: `ExecT_KEY(S) = WordOk(Tp(S.arg))`. -/
def execTKey (s : State) : Host.Outcome State Fault Refusal := completeWord (fun S => transTp S.arg) s

/-- R129: the 32 round keys, each big-endian, in derivation order. -/
def scheduleBytes (rks : List Word) : List Byte := (rks.map unbe32).flatten

/-- R129, ExecKEY_EXPAND. IN_LEN, IN_BUF and ARG are not read. -/
def keyExpandResult (S : Snapshot) : Except CmdError (List Byte) := do
  let key ← getKey S
  pure (scheduleBytes (expand key))

/-- KEY_EXPAND, R129. -/
def execKeyExpand (s : State) : Host.Outcome State Fault Refusal := completeBuffer keyExpandResult s

end Sys2Proof.Machine
end

