-- ==== Sys2Proof/Machine/RoundFamily.lean ====
section
/-! DEFINITION. Family 0x2, the round function: LIN_L and T_ROUND (spec/42_round_function.md R152, R153). -/

namespace Sys2Proof.Machine

/-- LIN_L, R152: `ExecLIN_L(S) = WordOk(L(S.arg))`. -/
def execLinL (s : State) : Host.Outcome State Fault Refusal := completeWord (fun S => transL S.arg) s

/-- T_ROUND, R153: `ExecT_ROUND(S) = WordOk(T(S.arg))`. -/
def execTRound (s : State) : Host.Outcome State Fault Refusal := completeWord (fun S => transT S.arg) s

end Sys2Proof.Machine
end

