-- ==== Sys2Proof/Machine/SboxFamily.lean ====
section
/-! DEFINITION. Family 0x0, the S-box: SBOX and TAU (spec/40_sbox.md R104, R105). -/

namespace Sys2Proof.Machine

/-- R104: `ExecSBOX(S) = WordOk(zext_32(Sbox(S.arg[7:0])))`. -/
def sboxResult (S : Snapshot) : Word := (sbox (S.arg.extractLsb' 0 8)).setWidth 32

/-- SBOX, R104. -/
def execSbox (s : State) : Host.Outcome State Fault Refusal := completeWord sboxResult s

/-- TAU, R105: `ExecTAU(S) = WordOk(tau(S.arg))`. -/
def execTau (s : State) : Host.Outcome State Fault Refusal := completeWord (fun S => tau S.arg) s

end Sys2Proof.Machine
end

