-- ==== Sys2Proof/Machine/Dispatch.lean ====
section
/-! DEFINITION. exec: one arm per command, each a direct call of the command's meaning (spec/30_encoding.md R85). -/

namespace Sys2Proof.Machine

def exec (i : Instr) (s : State) : Host.Outcome State Fault Refusal :=
  match i with
  | .sbox => Sys2Proof.Machine.execSbox s
  | .tau => Sys2Proof.Machine.execTau s
  | .linLp => Sys2Proof.Machine.execLinLp s
  | .tKey => Sys2Proof.Machine.execTKey s
  | .keyExpand => Sys2Proof.Machine.execKeyExpand s
  | .linL => Sys2Proof.Machine.execLinL s
  | .tRound => Sys2Proof.Machine.execTRound s
  | .blockFwd => Sys2Proof.Machine.execBlockFwd s
  | .blockRev => Sys2Proof.Machine.execBlockRev s
  | .ecbEnc => Sys2Proof.Machine.execEcbEnc s
  | .ecbDec => Sys2Proof.Machine.execEcbDec s

end Sys2Proof.Machine
end

