-- ==== Sys2Proof/Machine/HostPort.lean ====
section
/-! DEFINITION. The host port: address map, legal accesses, protocol faults and the effect of each access
(spec/10_state.md R27 to R38, spec/20_memory.md R53 to R55, spec/60_exceptions.md R230). -/

namespace Sys2Proof.Machine

/-- The registers of R27. -/
inductive Reg where
  | cmd | status | keyLen | inLen | outLen | arg | result
  | key (j : Fin 4)
  deriving DecidableEq, Repr

/-- What an access reaches: a register, or one byte of a buffer (R55). -/
inductive Target where
  | reg (r : Reg)
  | inByte (i : Nat)
  | outByte (i : Nat)
  deriving DecidableEq, Repr

/-- Why a host access is a protocol fault: the cases (a) to (e) of R230. -/
inductive ProtocolFault where
  | writeWhileBusy      -- (a)
  | writeReadOnly       -- (b)
  | reservedAddress     -- (c)
  | sizeOrAlignment     -- (d)
  | resetAsserted       -- (e)
  deriving DecidableEq, Repr

/-- The register at an offset (R27); none at a reserved one (R35). -/
def regAt (addr : Addr) : Option Reg :=
  match addr.toNat with
  | 0x000 => some .cmd
  | 0x004 => some .status
  | 0x008 => some .keyLen
  | 0x00C => some .inLen
  | 0x010 => some .outLen
  | 0x014 => some .arg
  | 0x018 => some .result
  | 0x020 => some (.key 0)
  | 0x024 => some (.key 1)
  | 0x028 => some (.key 2)
  | 0x02C => some (.key 3)
  | _ => none

/-- Base of the IN_BUF window (R55). -/
def inBase : Nat := 0x10000

/-- Base of the OUT_BUF window (R55). -/
def outBase : Nat := 0x20000

/-- The buffer byte at an address, for the capacity N_IN (R55); none outside the two windows. -/
def bufferByteAt (nIn : Nat) (addr : Addr) : Option Target :=
  if inBase ≤ addr.toNat ∧ addr.toNat < inBase + nIn then some (.inByte (addr.toNat - inBase))
  else if outBase ≤ addr.toNat ∧ addr.toNat < outBase + nIn + 16 then some (.outByte (addr.toNat - outBase))
  else none

/-- What a 4-byte access reaches (R53): only an aligned, listed register offset. -/
def target32 (nIn : Nat) (addr : Addr) : Except ProtocolFault Target :=
  if addr.toNat % 4 ≠ 0 then .error .sizeOrAlignment
  else
    match regAt addr with
    | some r => .ok (.reg r)
    | none => if (bufferByteAt nIn addr).isSome then .error .sizeOrAlignment else .error .reservedAddress

/-- What a 1-byte access reaches (R53): only a buffer byte. -/
def target8 (nIn : Nat) (addr : Addr) : Except ProtocolFault Target :=
  match bufferByteAt nIn addr with
  | some t => .ok t
  | none => if (regAt addr).isSome then .error .sizeOrAlignment else .error .reservedAddress

/-- May the host write this target, and when (R230 (a), (b))? -/
def writeCheck (busy : Bool) : Target → Except ProtocolFault Unit
  | .reg .status | .reg .outLen | .reg .result | .outByte _ => .error .writeReadOnly
  | .reg .cmd | .reg .keyLen | .reg .inLen | .reg .arg | .reg (.key _) | .inByte _ =>
    if busy then .error .writeWhileBusy else .ok ()

/-- The effect of a legal 4-byte read of a register (R28 to R36). -/
def readReg (r : Reg) (s : State) : State :=
  match r with
  | .cmd => s.answer (.word 0#32)
  | .status => s.answer (.word s.status.toWord)
  | .keyLen => s.answer (.word (s.keyLen.setWidth 32))
  | .inLen => s.answer (.word s.inLen)
  | .outLen => if s.status.busy then s.answerDrawn (.word (Config.freeOutLen s.draws)) else s.answer (.word s.outLen)
  | .arg => s.answer (.word s.arg)
  | .result => if s.status.busy then s.answerDrawn (.word (Config.freeResult s.draws)) else s.answer (.word s.result)
  | .key _ => s.answer (.word 0#32)

/-- The effect of a legal read of IN[i] (R37): what it holds, the same at every read until the host writes it
(93_implementation_defined.md U6). -/
def readIn (i : Nat) (s : State) : State := s.answer (.byte (inputByteAt s.resetDraw s.inBuf i))

/-- What OUT[i] is to the host (R38): specified only while no command is in flight and i < OUT_LEN. -/
def visibleOut (s : State) (i : Nat) : Option Byte :=
  if s.status.busy then none else if i < s.outLen.toNat then s.outBuf.read i else none

/-- The effect of a legal read of OUT[i] (R38): its value, or a draw. -/
def readOut (i : Nat) (s : State) : State :=
  match visibleOut s i with
  | some b => s.answer (.byte b)
  | none => s.answerDrawn (.byte (Config.freeOutByte s.draws))

/-- The effect of a legal write of a register (R28, R30, R31, R33, R36): at CMD an issue, elsewhere the value is stored.
The read-only registers are never reached. -/
def writeReg (r : Reg) (v : Word) (s : State) : State :=
  match r with
  | .cmd => s.issue v
  | .keyLen => { s with keyLen := v.extractLsb' 0 8 }
  | .inLen => { s with inLen := v }
  | .arg => { s with arg := v }
  | .key j => { s with key := quadSet s.key j ⟨v, true⟩ }
  | .status | .outLen | .result => s

/-- The effect of a legal write of IN[i] (R37). -/
def writeIn (i : Nat) (v : Byte) (s : State) : State := { s with inBuf := s.inBuf.write i v }

/-- The effect of a legal read. -/
def readTarget (t : Target) (s : State) : State :=
  match t with
  | .reg r => readReg r s
  | .inByte i => readIn i s
  | .outByte i => readOut i s

/-- The effect of a legal 4-byte write. -/
def write32Target (t : Target) (v : Word) (s : State) : State :=
  match t with
  | .reg r => writeReg r v s
  | .inByte _ | .outByte _ => s

/-- The effect of a legal 1-byte write. -/
def write8Target (t : Target) (v : Byte) (s : State) : State :=
  match t with
  | .inByte i => writeIn i v s
  | .reg _ | .outByte _ => s

/-- What an access is to the port: the target it reaches legally, or the protocol fault it is (R53, R230). -/
def judge (s : State) (a : HostAccess) : Except ProtocolFault Target :=
  if s.rst then .error .resetAsserted
  else
    match a with
    | .read32 addr => target32 s.nIn addr
    | .read8 addr => target8 s.nIn addr
    | .write32 addr _ => do
      let t ← target32 s.nIn addr
      writeCheck s.status.busy t
      pure t
    | .write8 addr _ => do
      let t ← target8 s.nIn addr
      writeCheck s.status.busy t
      pure t

/-- The effect of a legal access on its target. -/
def perform (a : HostAccess) (t : Target) (s : State) : State :=
  match a with
  | .read32 _ | .read8 _ => readTarget t s
  | .write32 _ v => write32Target t v s
  | .write8 _ v => write8Target t v s

/-- One host access: its effect, or the fault mark. -/
def hostAccess (a : HostAccess) (s : State) : State :=
  match judge s a with
  | .ok t => perform a t s
  | .error _ => s.markFault

end Sys2Proof.Machine
end

