-- ==== Sys2Proof/Machine/Step.lean ====
section
/-! DEFINITION. One step of the machine: the turn that is due is taken by the core, by the host or by the reset input
(spec/10_state.md R20, spec/30_encoding.md R78, R79; log 6). -/

namespace Sys2Proof.Machine

/-- A completing step of the core (R79): enabled while a command is in flight and the reset input is not asserted
(R250); otherwise the core idles. The command is the one the snapshot's word decodes to; an illegal word completes with
IllegalCommand (R73, R85). -/
def coreStep (s : State) : Host.Outcome State Fault Refusal :=
  if s.rst || !s.status.busy then .next s
  else
    match s.inflight with
    | none => .next s
    | some S =>
      match decode S.cmd with
      | .ok i => exec i s
      | .error _ => .next (s.finishIllegal S)

/-- Does this turn belong to the reset input? -/
def Turn.isResetPin : Turn → Bool
  | .resetPin _ => true
  | .coreWork | .coreDone | .access _ => false

/-- The effect of one turn. A core step that does not complete has no effect the model shows (R24, R79). -/
def takeTurn (t : Turn) (s : State) : Host.Outcome State Fault Refusal :=
  match t with
  | .coreWork => .next s
  | .coreDone => coreStep s
  | .access a => .next (hostAccess a s)
  | .resetPin level => .next (s.drivePin level)

/-- One step. After a protocol fault only the reset input gives the machine a meaning again (R230, log 8). When no turn
is listed the core moves, so that a BUSY state is never final (R79, R259). -/
def step (s : State) : Host.Outcome State Fault Refusal :=
  match s.inputs with
  | [] => if s.fault then .fault .protocolFault else coreStep s
  | t :: rest =>
    if s.fault && !t.isResetPin then .fault .protocolFault else takeTurn t { s with inputs := rest }

/-- The command word in the low nbits bits of w, just issued in s (R78) with its completing core turn due, so that the
very next step runs it (log 7). The fault mark and the reset input are put to where a core step is taken. -/
def State.withFetchWord (s : State) (nbits w : Nat) : State :=
  let issued := s.issue (BitVec.ofNat 32 (w % 2 ^ nbits))
  { issued with
    fault := false
    rst := false
    inputs := match s.inputs with
      | [] => []
      | turns => .coreDone :: turns }

end Sys2Proof.Machine
end

