-- ==== Sys2Proof/Machine/Engine.lean ====
section
/-! DEFINITION. The hardware form of the two engines, on the datapath registers K, X, RK and their counters
(spec/10_state.md R21 to R24, spec/41_key_schedule.md R124, spec/43_block_cipher.md R171, R172). A completion does all
of this inside one step (10_state.md R41), so exec uses the functions the engines compute; that the engines compute
them is a statement of the certificates. -/

namespace Sys2Proof.Machine

/-- R24: a counter "increases by 1 per round … and stops after its last value". -/
def nextRound (i : Fin 32) : Fin 32 := if h : i.val + 1 < 32 then ⟨i.val + 1, h⟩ else i

/-- n rounds of an engine. -/
def rounds (f : Datapath → Datapath) : Nat → Datapath → Datapath
  | 0, d => d
  | n + 1, d => rounds f n (f d)

/-- R21, R124: K is loaded with MK[j] ⊕ FK[j], and the round counter starts at 0. -/
def Datapath.loadKey (d : Datapath) (key : List Byte) : Datapath :=
  { d with k := initialKeyWindow key, keyRound := 0 }

/-- The constant CK[i] (R121). -/
def ckAt (i : Fin 32) : Word := ckTable.getD i.val 0#32

/-- R124, one key-schedule round: `new <- K0 ⊕ Tp(K1 ⊕ K2 ⊕ K3 ⊕ CK[i]); RK[i] <- new; (K0,K1,K2,K3) <- (K1,K2,K3,new)`. -/
def Datapath.keyRoundStep (d : Datapath) : Datapath :=
  let new := nextKeyWord d.k (ckAt d.keyRound)
  { d with k := shiftIn d.k new, rk := d.rk.set d.keyRound.val new, keyRound := nextRound d.keyRound }

/-- The key schedule engine: 32 rounds from a loaded key. -/
def Datapath.runKeySchedule (d : Datapath) (key : List Byte) : Datapath :=
  rounds Datapath.keyRoundStep 32 (d.loadKey key)

/-- R23: RK is read in index order for encryption and in reverse index order for decryption. -/
def roundKeyAt (rk : Vector Word 32) (reversed : Bool) (r : Fin 32) : Word :=
  if reversed then rk[31 - r.val] else rk[r.val]

/-- R22: X is loaded from the block, and the round counter starts at 0. -/
def Datapath.loadBlock (d : Datapath) (block : List Byte) : Datapath :=
  { d with x := words block, feistelRound := 0 }

/-- R171, one Feistel round on the window X. -/
def Datapath.feistelStep (reversed : Bool) (d : Datapath) : Datapath :=
  { d with x := Machine.feistelRound d.x (roundKeyAt d.rk reversed d.feistelRound), feistelRound := nextRound d.feistelRound }

/-- The Feistel engine: 32 rounds from a loaded block. -/
def Datapath.runFeistel (reversed : Bool) (d : Datapath) (block : List Byte) : Datapath :=
  rounds (Datapath.feistelStep reversed) 32 (d.loadBlock block)

/-- R172: the output block of the window. -/
def Datapath.outputBlock (d : Datapath) : List Byte := bytes (reverseWindow d.x)

/-- R24, R62: the blocks one after another, the block index counting them up to the last; the outputs in block order. -/
def runBlocks (reversed : Bool) : Datapath → List (List Byte) → List (List Byte)
  | _, [] => []
  | d, b :: bs =>
    let d' := d.runFeistel reversed b
    let j' := if bs.isEmpty then d'.blockIndex else d'.blockIndex + 1
    d'.outputBlock :: runBlocks reversed { d' with blockIndex := j' } bs

/-- One buffer's pass through both engines: the schedule once (R126), then every block (R193, R195). -/
def Datapath.runBuffer (reversed : Bool) (d : Datapath) (key q : List Byte) : List Byte :=
  join (runBlocks reversed { d.runKeySchedule key with blockIndex := 0 } (split q))

end Sys2Proof.Machine
end

