-- ==== Sys2Proof/Safety.lean ====
section
/-! DEFINITION. The terms claims use: the invariant of the machine, what the host can see of the output, which items a
command leaves alone, and a safe run. -/

namespace Sys2Proof.Machine

/-- What the output registers hold, as the host may read it (spec/10_state.md R32, R38): OUT_LEN is the length of b, the
bytes below it are those of b, and every other byte of OUT_BUF is unspecified. -/
def State.outputIs (t : State) (b : List Byte) : Prop :=
  t.outLen.toNat = b.length ∧ ∀ i, visibleOut t i = b[i]?

/-- The items a command reads (R26, R37) stand in t as in s, IN_BUF byte by byte; the reset draw says
what its unwritten bytes hold. -/
def State.sameInputs (s t : State) : Prop :=
  t.key = s.key ∧ t.keyLen = s.keyLen ∧ t.inLen = s.inLen ∧ t.arg = s.arg ∧ t.resetDraw = s.resetDraw ∧
    ∀ i, t.inBuf.read i = s.inBuf.read i

/-- The items a command delivers (R32, R34, R38) stand in t as in s, OUT_BUF byte by byte. -/
def State.sameOutputs (s t : State) : Prop :=
  t.result = s.result ∧ t.outLen = s.outLen ∧ ∀ i, t.outBuf.read i = s.outBuf.read i

/-- What no command touches although it is part of the state: the fault mark, the reset input, the turns to come, the
port's last answer, N_IN. -/
def State.sameSurroundings (s t : State) : Prop :=
  t.fault = s.fault ∧ t.rst = s.rst ∧ t.inputs = s.inputs ∧ t.readData = s.readData ∧ t.nIn = s.nIn

/-- N_IN is a legal capacity (00_scope.md R7). -/
def capacityOk (nIn : Nat) : Prop := nIn % 16 = 0 ∧ 112 ≤ nIn ∧ nIn ≤ 65520

/-- The invariant of the machine. -/
structure State.Inv (s : State) : Prop where
  /-- R7 -/
  capacity : capacityOk s.nIn
  /-- R29: only the legal combinations of flags; ERRCODE is 0 exactly when ERR = 0, and never above 5 (R220). -/
  flags : s.status.legal = true
  /-- R26: a snapshot is held exactly while BUSY = 1. -/
  busy_iff : s.status.busy = s.inflight.isSome
  /-- R26: "S always equals the current register contents"; STATUS.OPCODE echoes its command word (R29). -/
  stable : ∀ S, s.inflight = some S → S = s.snapshot S.cmd ∧ s.status.opcode = S.opcode
  /-- U5: a key register the host has not written since reset still holds the draw of that reset. -/
  unwrittenKeys : ∀ j : Fin 4, (quadGet s.key j).written = false →
    (quadGet s.key j).value = Config.resetKeyWord s.resetDraw j.val
  /-- IN_BUF is in canonical form and inside its capacity (R37). -/
  inBuf : s.inBuf.wf = true ∧ s.inBuf.below s.nIn = true
  /-- OUT_BUF holds the bytes of one output, in canonical form, OUT_LEN is their number and at most N_IN + 16 (R32, R38). -/
  outBuf : ∃ b, s.outBuf = Memory.ofBytes b ∧ s.outLen.toNat = b.length ∧ b.length ≤ s.nIn + 16
  /-- R250: no command is in flight while the reset input is asserted. -/
  quiet : s.rst = true → s.inflight = none

/-- R230: "Every claim takes 'no fault' as a premise." A state is safe while no protocol fault has happened. -/
def State.safe (s : State) : Prop := s.fault = false

/-- t is reached from s by steps through safe states only. -/
inductive SafeRun (s : State) : State → Prop where
  | start : s.safe → SafeRun s s
  | more {t u : State} : SafeRun s t → step t = .next u → u.safe → SafeRun s u

end Sys2Proof.Machine
end

