-- ==== Sys2Proof/Certificates/Slice0/Obligations.lean ====
section
/-! DEFINITION. The statements for the provers, in the order of the spec's files: encodings, functions, engines, codec,
commands, host port, errors, run. Each docstring names the rule of spec/ it formalises. Where a statement mentions
State.draws, State.resetDraw, the datapath, the turns to come, the port's answer or State.nIn, these are the model's own
(logs 1, 2, 3, 5, 6, 11, 13) and hold for every value. -/

open Sys2Proof Sys2Proof.Machine

/-! ## Encodings -/

/-- R72: each command's opcode and class, and a word selects a command iff it is zext_32 of its opcode; so encoding and
decoding undo each other. -/
def Obligations.WordSelectsCommandIffZextOpcode : Prop :=
  (∀ (v : Word) (i : Instr), decode v = .ok i ↔ v = (opcodeOf i).setWidth 32) ∧
  (∀ i : Instr, decode (encode i) = .ok i) ∧
  [Instr.sbox, .tau, .linLp, .tKey, .keyExpand, .linL, .tRound, .blockFwd, .blockRev, .ecbEnc, .ecbDec].map opcodeOf
    = [0x01#8, 0x02#8, 0x11#8, 0x12#8, 0x13#8, 0x21#8, 0x22#8, 0x31#8, 0x32#8, 0x41#8, 0x42#8] ∧
  (∀ i : Instr, isWordCommand i = true ↔ i ∈ [Instr.sbox, .tau, .linLp, .tKey, .linL, .tRound])

/-- R70, R71: a word is legal iff its reserved bits are 0 and its low byte is one of the eleven opcodes, that is iff its
three fields are well formed. -/
def Obligations.LegalWordIffFieldsWellFormed : Prop :=
  ∀ v : Word,
    ((∃ i, decode v = .ok i) ↔
      v.extractLsb' 8 24 = 0#24 ∧
      v.extractLsb' 0 8 ∈ [0x01#8, 0x02#8, 0x11#8, 0x12#8, 0x13#8, 0x21#8, 0x22#8, 0x31#8, 0x32#8, 0x41#8, 0x42#8]) ∧
    ((∃ i, decode v = .ok i) ↔ (cmdFields v).wf = true)

/-- R72: the eleven command words, written out. A check of fixed words. -/
def Obligations.CommandWordsDecode : Prop :=
  decode 0x00000001#32 = .ok .sbox ∧ decode 0x00000002#32 = .ok .tau ∧
  decode 0x00000011#32 = .ok .linLp ∧ decode 0x00000012#32 = .ok .tKey ∧ decode 0x00000013#32 = .ok .keyExpand ∧
  decode 0x00000021#32 = .ok .linL ∧ decode 0x00000022#32 = .ok .tRound ∧
  decode 0x00000031#32 = .ok .blockFwd ∧ decode 0x00000032#32 = .ok .blockRev ∧
  decode 0x00000041#32 = .ok .ecbEnc ∧ decode 0x00000042#32 = .ok .ecbDec

/-! ## The functional core -/

/-- R102: the S-box is a bijection on bytes, with 0xAB its only fixed point. -/
def Obligations.SboxIsBijection : Prop :=
  Function.Bijective sbox ∧ ∀ b : Byte, sbox b = b ↔ b = 0xAB#8

/-- R103: τ substitutes each of the four bytes on its own, and is a bijection on words. -/
def Obligations.TauSubstitutesEachByte : Prop :=
  (∀ (a : Word) (k : Nat), k < 4 → (tau a).extractLsb' (8 * k) 8 = sbox (a.extractLsb' (8 * k) 8)) ∧
  Function.Bijective tau

/-- R122, R150: L′ and L, their linearity over XOR, and that they are not the same transform. -/
def Obligations.LinearTransformsAreLinear : Prop :=
  (∀ s : Word, transLp s = s ^^^ rotl32 s 13 ^^^ rotl32 s 23) ∧
  (∀ a b : Word, transLp (a ^^^ b) = transLp a ^^^ transLp b) ∧ transLp 0#32 = 0#32 ∧
  (∀ x : Word, transL x = x ^^^ rotl32 x 2 ^^^ rotl32 x 10 ^^^ rotl32 x 18 ^^^ rotl32 x 24) ∧
  (∀ a b : Word, transL (a ^^^ b) = transL a ^^^ transL b) ∧ transL 0#32 = 0#32 ∧
  transL ≠ transLp

/-- R10: rotl32 is the circular shift: bit i of the result is bit (i - n) mod 32 of the operand, and a rotation by 0
changes nothing. -/
def Obligations.RotationIsCircular : Prop :=
  (∀ (x : Word) (n i : Nat), n < 32 → i < 32 → (rotl32 x n).getLsbD i = x.getLsbD ((i + 32 - n) % 32)) ∧
  (∀ x : Word, rotl32 x 0 = x)

/-- R11: words and bytes are inverse to each other: the packing is big-endian and drops nothing. -/
def Obligations.PackingRoundTrips : Prop :=
  (∀ b0 b1 b2 b3 : Byte, unbe32 (be32 b0 b1 b2 b3) = [b0, b1, b2, b3]) ∧
  (∀ w : Quad Word, words (bytes w) = w) ∧
  (∀ b : List Byte, b.length = 16 → bytes (words b) = b) ∧
  (∀ (b : List Byte) (i : Nat), i < 4 → b.length = 16 →
    unbe32 (quadGet (words b) (Fin.ofNat 4 i)) = (b.drop (4 * i)).take 4)

/-- R121: the 32 round constants as the byte formula gives them. -/
def Obligations.RoundConstantsFollowByteFormula : Prop :=
  ckTable.length = 32 ∧
  ∀ i : Nat, i < 32 →
    ckTable[i]? = some (be32 (BitVec.ofNat 8 (7 * (4 * i))) (BitVec.ofNat 8 (7 * (4 * i + 1)))
      (BitVec.ofNat 8 (7 * (4 * i + 2))) (BitVec.ofNat 8 (7 * (4 * i + 3))))

/-- R124: expand follows the recurrence of the rule's pseudocode, on one sequence k[0..35], and so does the hardware form:
from any datapath, after n rounds the window K holds k[n..n+3] and RK[i] holds k[i+4] for each round i done. -/
def Obligations.RoundKeysFollowRecurrence : Prop :=
  ∀ key : List Byte, key.length = 16 →
    ∃ k : Nat → Word,
      k 0 = (words key).w0 ^^^ fkTable.w0 ∧ k 1 = (words key).w1 ^^^ fkTable.w1 ∧
      k 2 = (words key).w2 ^^^ fkTable.w2 ∧ k 3 = (words key).w3 ^^^ fkTable.w3 ∧
      (∀ i, i < 32 → k (i + 4) = k i ^^^ transTp (k (i + 1) ^^^ k (i + 2) ^^^ k (i + 3) ^^^ ckTable.getD i 0#32)) ∧
      expand key = (List.range 32).map (fun i => k (i + 4)) ∧
      ∀ (d : Datapath) (n : Nat), n ≤ 32 →
        (rounds Datapath.keyRoundStep n (d.loadKey key)).k = ⟨k n, k (n + 1), k (n + 2), k (n + 3)⟩ ∧
        ∀ i, i < n → (rounds Datapath.keyRoundStep n (d.loadKey key)).rk.toList[i]? = some (k (i + 4))

/-- R170, R171, R172: processBlock follows the recurrence X(r+4); after n rounds the window holds X(n)..X(n+3); the output
is the last window reversed. -/
def Obligations.BlockWordsFollowRecurrence : Prop :=
  ∀ (block : List Byte) (rks : List Word), block.length = 16 → rks.length = 32 →
    ∃ X : Nat → Word,
      words block = ⟨X 0, X 1, X 2, X 3⟩ ∧
      (∀ r, r < 32 → X (r + 4) = X r ^^^ transT (X (r + 1) ^^^ X (r + 2) ^^^ X (r + 3) ^^^ rks.getD r 0#32)) ∧
      (∀ n, n ≤ 32 → (rks.take n).foldl Machine.feistelRound (words block) = ⟨X n, X (n + 1), X (n + 2), X (n + 3)⟩) ∧
      processBlock block rks = unbe32 (X 35) ++ unbe32 (X 34) ++ unbe32 (X 33) ++ unbe32 (X 32)

/-- R174: the self-inverse property, for every sequence of words used as keys. -/
def Obligations.BlockCipherSelfInverse : Prop :=
  ∀ (block : List Byte) (keys : List Word), block.length = 16 →
    processBlock (processBlock block keys) keys.reverse = block

/-! ## The engines in hardware form -/

/-- R124, R21, R23, R24: from any datapath, 32 rounds of the key schedule engine leave the round keys in RK in
derivation order, the last four words in K, and the counter at its last value. -/
def Obligations.KeyEngineLeavesScheduleInRK : Prop :=
  ∀ (d : Datapath) (key : List Byte),
    (d.runKeySchedule key).rk.toList = expand key ∧
    (d.runKeySchedule key).k
      = ⟨(expand key).getD 28 0#32, (expand key).getD 29 0#32, (expand key).getD 30 0#32, (expand key).getD 31 0#32⟩ ∧
    (d.runKeySchedule key).keyRound.val = 31

/-- R22, R23, R171, R172: 32 rounds of the Feistel engine compute processBlock with RK in index order, or in reverse
index order, and leave RK alone. -/
def Obligations.FeistelEngineComputesProcessBlock : Prop :=
  ∀ (d : Datapath) (block : List Byte) (reversed : Bool),
    (d.runFeistel reversed block).outputBlock
      = processBlock block (if reversed then d.rk.toList.reverse else d.rk.toList) ∧
    (d.runFeistel reversed block).rk = d.rk ∧ (d.runFeistel reversed block).feistelRound.val = 31

/-- R126, R193, R195, R62: one buffer's pass through the engines is what the codec's functions compute. -/
def Obligations.EnginesRefineCodec : Prop :=
  ∀ (d : Datapath) (key p c : List Byte),
    d.runBuffer false key (pad p) = encrypt p key ∧
    d.runBuffer true key c = processBlocks (expand key).reverse c

/-! ## The ECB codec -/

/-- R190: PKCS#7 padding. -/
def Obligations.PaddingReachesBlockMultiple : Prop :=
  (∀ p : List Byte,
    1 ≤ 16 - p.length % 16 ∧ 16 - p.length % 16 ≤ 16 ∧
    pad p = p ++ List.replicate (16 - p.length % 16) (BitVec.ofNat 8 (16 - p.length % 16)) ∧
    (pad p).length = p.length + (16 - p.length % 16) ∧ 0 < (pad p).length ∧ (pad p).length % 16 = 0) ∧
  pad [] = List.replicate 16 0x10#8

/-- R191, R192: split cuts consecutive 16-byte blocks, join puts blocks together in order, and each undoes the other. -/
def Obligations.JoinUndoesSplit : Prop :=
  (∀ q : List Byte, q.length % 16 = 0 →
    join (split q) = q ∧ (split q).length = q.length / 16 ∧
    (∀ j, j < q.length / 16 → (split q)[j]? = some ((q.drop (16 * j)).take 16)) ∧
    ∀ b ∈ split q, b.length = 16) ∧
  (∀ blocks : List (List Byte), (∀ b ∈ blocks, b.length = 16) →
    split (join blocks) = blocks ∧
    ∀ j, j < blocks.length → blocks[j]? = some (((join blocks).drop (16 * j)).take 16))

/-- R197: output block j of either pass is a function of input block j and the schedule; equal input blocks give equal
output blocks. -/
def Obligations.BlocksAreIndependent : Prop :=
  (∀ (p key : List Byte) (j : Nat), j < (pad p).length / 16 →
    blockAt (encrypt p key) j = processBlock (blockAt (pad p) j) (expand key)) ∧
  (∀ (c key : List Byte) (j : Nat), c.length % 16 = 0 → j < c.length / 16 →
    blockAt (processBlocks (expand key).reverse c) j = processBlock (blockAt c j) (expand key).reverse) ∧
  (∀ (p key : List Byte) (j j' : Nat), j < (pad p).length / 16 → j' < (pad p).length / 16 →
    blockAt (pad p) j = blockAt (pad p) j' → blockAt (encrypt p key) j = blockAt (encrypt p key) j')

/-- R194, R195: the outcome of decrypt, case by case, and the length of its result. -/
def Obligations.DecryptOutcome : Prop :=
  ∀ c key : List Byte,
    ((c.length = 0 ∨ c.length % 16 ≠ 0) → decrypt c key = .error .invalidCiphertextLength) ∧
    (c.length ≠ 0 → c.length % 16 = 0 →
      let q := processBlocks (expand key).reverse c
      let n := (q.getD (q.length - 1) 0).toNat
      q.length = c.length ∧
      ((n = 0 ∨ 16 < n) → decrypt c key = .error .invalidPadding) ∧
      (1 ≤ n → n ≤ 16 →
        decrypt c key = .ok (q.take (q.length - n)) ∧ (q.take (q.length - n)).length = c.length - n))

/-- R196: the padding check reads only the final byte, and strips what that byte says. -/
def Obligations.PaddingCheckReadsOnlyFinalByte : Prop :=
  (∀ q q' : List Byte, q ≠ [] → q' ≠ [] → q.getLast? = q'.getLast? →
    ((∃ r, stripPad q = .ok r) ↔ ∃ r, stripPad q' = .ok r)) ∧
  (∀ (q : List Byte) (n : Byte), 1 ≤ n.toNat → n.toNat ≤ 16 → 16 ≤ q.length + 1 →
    stripPad (q ++ [n]) = .ok (q.take (q.length + 1 - n.toNat))) ∧
  (∀ (q : List Byte) (n : Byte), (n.toNat = 0 ∨ 16 < n.toNat) → stripPad (q ++ [n]) = .error .invalidPadding) ∧
  stripPad ((List.range 15).map (fun i => BitVec.ofNat 8 (0x20 + i)) ++ [0x03#8])
    = .ok ((List.range 13).map fun i => BitVec.ofNat 8 (0x20 + i))

/-- R198 (a) to (e): round trip, determinism, padding bounds, length validation, padding validation. -/
def Obligations.EcbCodecLaws : Prop :=
  (∀ p key : List Byte, key.length = 16 → decrypt (encrypt p key) key = .ok p) ∧
  (∀ p p' key key' : List Byte, p = p' → key = key' → encrypt p key = encrypt p' key') ∧
  (∀ p key : List Byte,
    1 ≤ (encrypt p key).length - p.length ∧ (encrypt p key).length - p.length ≤ 16 ∧
    (p.length % 16 = 0 → (encrypt p key).length - p.length = 16)) ∧
  (∀ c key : List Byte, (c = [] ∨ c.length % 16 ≠ 0) → decrypt c key = .error .invalidCiphertextLength) ∧
  (∀ c key : List Byte, c ≠ [] → c.length % 16 = 0 →
    (lastByte (processBlocks (expand key).reverse c) = 0 ∨ 16 < lastByte (processBlocks (expand key).reverse c)) →
    decrypt c key = .error .invalidPadding)

/-! ## The commands: what each completes with -/

/-- R104, SBOX. -/
def Obligations.SboxCommandResult : Prop :=
  decode 0x00000001#32 = .ok .sbox ∧
  (∀ (s : State) (S : Snapshot), s.inflight = some S →
    ∃ t, exec .sbox s = .next t ∧ t.result = 0#24 ++ sbox (S.arg.extractLsb' 0 8) ∧
      t.status = ⟨false, true, false, 0#4, S.opcode⟩ ∧ t.outLen = s.outLen ∧ t.outBuf = s.outBuf) ∧
  sbox 0x00#8 = 0xD6#8 ∧ sbox 0xFF#8 = 0x48#8 ∧ (∀ b : Byte, sbox b = b ↔ b = 0xAB#8) ∧ sbox 0x10#8 = 0x2B#8

/-- R105, TAU. -/
def Obligations.TauCommandResult : Prop :=
  decode 0x00000002#32 = .ok .tau ∧
  (∀ (s : State) (S : Snapshot), s.inflight = some S →
    ∃ t, exec .tau s = .next t ∧
      t.result = sbox (S.arg.extractLsb' 24 8) ++ sbox (S.arg.extractLsb' 16 8) ++ sbox (S.arg.extractLsb' 8 8)
        ++ sbox (S.arg.extractLsb' 0 8) ∧
      t.status = ⟨false, true, false, 0#4, S.opcode⟩) ∧
  (∀ d : Byte, tau (d ++ d ++ d ++ d) = sbox d ++ sbox d ++ sbox d ++ sbox d) ∧
  tau 0x00000000#32 = 0xD6D6D6D6#32 ∧ tau 0xFFFFFFFF#32 = 0x48484848#32 ∧ tau 0xABABABAB#32 = 0xABABABAB#32 ∧
  tau 0x00000000#32 ≠ transT 0x00000000#32 ∧ tau 0x01234567#32 = 0x90F473A2#32

/-- R127, LIN_LP. -/
def Obligations.LinLpCommandResult : Prop :=
  decode 0x00000011#32 = .ok .linLp ∧
  (∀ (s : State) (S : Snapshot), s.inflight = some S →
    ∃ t, exec .linLp s = .next t ∧ t.result = S.arg ^^^ rotl32 S.arg 13 ^^^ rotl32 S.arg 23 ∧
      t.status = ⟨false, true, false, 0#4, S.opcode⟩) ∧
  transLp 0x00000000#32 = 0x00000000#32 ∧ transLp 0xFFFFFFFF#32 = 0xFFFFFFFF#32 ∧
  transLp 0x00000001#32 = 0x00802001#32 ∧ transLp 0x80000000#32 = 0x80401000#32 ∧
  transLp 0x01234567#32 = 0xDA0F34E1#32

/-- R128, T_KEY. -/
def Obligations.TKeyCommandResult : Prop :=
  decode 0x00000012#32 = .ok .tKey ∧
  (∀ (s : State) (S : Snapshot), s.inflight = some S →
    ∃ t, exec .tKey s = .next t ∧ t.result = transLp (tau S.arg) ∧
      t.status = ⟨false, true, false, 0#4, S.opcode⟩) ∧
  (∀ e : Byte, transLp (e ++ e ++ e ++ e)
    = (e ^^^ e.rotateLeft 5 ^^^ e.rotateLeft 7) ++ (e ^^^ e.rotateLeft 5 ^^^ e.rotateLeft 7)
      ++ (e ^^^ e.rotateLeft 5 ^^^ e.rotateLeft 7) ++ (e ^^^ e.rotateLeft 5 ^^^ e.rotateLeft 7)) ∧
  (∀ d : Byte, tau (d ++ d ++ d ++ d) = sbox d ++ sbox d ++ sbox d ++ sbox d) ∧
  transLp 0xD6D6D6D6#32 = 0x67676767#32 ∧ transTp 0x00000000#32 = 0x67676767#32 ∧
  transTp 0xFFFFFFFF#32 = 0x65656565#32 ∧ transTp 0x01234567#32 = 0xCFC85B85#32

/-- R129, KEY_EXPAND. Its key is the one the command sees (R36, R76); IN_LEN is not looked at. -/
def Obligations.KeyExpandCommandResult : Prop :=
  decode 0x00000013#32 = .ok .keyExpand ∧
  (∀ (s : State) (S : Snapshot), s.inflight = some S → S.keyLen = 16#8 →
    ∃ t, exec .keyExpand s = .next t ∧ t.outLen = 128#32 ∧ t.status = ⟨false, true, false, 0#4, S.opcode⟩ ∧
      ∀ i, i < 32 →
        [visibleOut t (4 * i), visibleOut t (4 * i + 1), visibleOut t (4 * i + 2), visibleOut t (4 * i + 3)]
          = (unbe32 ((expand (bytes (keyWords S))).getD i 0#32)).map some) ∧
  (∀ (s : State) (S : Snapshot), s.inflight = some S → S.keyLen ≠ 16#8 →
    ∃ t, exec .keyExpand s = .next t ∧ t.outLen = 0#32 ∧ t.status = ⟨false, true, true, 1#4, S.opcode⟩) ∧
  (∀ nIn, capacityOk nIn → 128 ≤ nIn + 16) ∧
  (expand (List.replicate 16 0#8)).getD 0 0#32 = 0x45603B23#32 ∧
  (expand (bytes ⟨0x01234567#32, 0x89ABCDEF#32, 0xFEDCBA98#32, 0x76543210#32⟩)).getD 0 0#32 = 0xF12186F9#32 ∧
  (expand (bytes ⟨0x01234567#32, 0x89ABCDEF#32, 0xFEDCBA98#32, 0x76543210#32⟩)).getD 31 0#32 = 0x9124A012#32

/-- R152, LIN_L. -/
def Obligations.LinLCommandResult : Prop :=
  decode 0x00000021#32 = .ok .linL ∧
  (∀ (s : State) (S : Snapshot), s.inflight = some S →
    ∃ t, exec .linL s = .next t ∧
      t.result = S.arg ^^^ rotl32 S.arg 2 ^^^ rotl32 S.arg 10 ^^^ rotl32 S.arg 18 ^^^ rotl32 S.arg 24 ∧
      t.status = ⟨false, true, false, 0#4, S.opcode⟩) ∧
  transL 0x00000000#32 = 0x00000000#32 ∧ transL 0xFFFFFFFF#32 = 0xFFFFFFFF#32 ∧
  transL 0x00000001#32 = 0x01040405#32 ∧ transL 0x80000000#32 = 0x80820202#32 ∧
  transL 0x01234567#32 = 0xFA26EB37#32

/-- R153, T_ROUND, with the rule's remarks: T is a bijection and is not T′. -/
def Obligations.TRoundCommandResult : Prop :=
  decode 0x00000022#32 = .ok .tRound ∧
  (∀ (s : State) (S : Snapshot), s.inflight = some S →
    ∃ t, exec .tRound s = .next t ∧ t.result = transL (tau S.arg) ∧
      t.status = ⟨false, true, false, 0#4, S.opcode⟩) ∧
  transT 0x00000000#32 = transL 0xD6D6D6D6#32 ∧ transL 0xD6D6D6D6#32 = 0x5B5B5B5B#32 ∧
  transT 0xFFFFFFFF#32 = transL 0x48484848#32 ∧ transL 0x48484848#32 = 0x21212121#32 ∧
  transTp 0x00000000#32 = 0x67676767#32 ∧ transT 0x01234567#32 = 0x6EF180C9#32 ∧
  Function.Bijective transL ∧ Function.Bijective transT

/-- R175, BLOCK_FWD: the result, then the errors in their order, then the rule's two ciphertexts. -/
def Obligations.BlockFwdCommandResult : Prop :=
  decode 0x00000031#32 = .ok .blockFwd ∧
  (∀ (s : State) (S : Snapshot), s.inflight = some S → capacityOk s.nIn → S.inLen = 16#32 → S.keyLen = 16#8 →
    ∃ t, exec .blockFwd s = .next t ∧ t.status = ⟨false, true, false, 0#4, S.opcode⟩ ∧ t.outLen = 16#32 ∧
      t.outputIs (processBlock (inputBytes S) (expand (bytes (keyWords S))))) ∧
  (∀ (s : State) (S : Snapshot), s.inflight = some S → S.inLen ≠ 16#32 →
    ∃ t, exec .blockFwd s = .next t ∧ t.status = ⟨false, true, true, 4#4, S.opcode⟩ ∧ t.outLen = 0#32) ∧
  (∀ (s : State) (S : Snapshot), s.inflight = some S → capacityOk s.nIn → S.inLen = 16#32 → S.keyLen ≠ 16#8 →
    ∃ t, exec .blockFwd s = .next t ∧ t.status = ⟨false, true, true, 1#4, S.opcode⟩ ∧ t.outLen = 0#32) ∧
  processBlock (List.replicate 16 0#8) (expand (List.replicate 16 0#8))
    = bytes ⟨0x9F1F7BFF#32, 0x6F551138#32, 0x4D943053#32, 0x1E538FD3#32⟩ ∧
  processBlock (bytes ⟨0x01234567#32, 0x89ABCDEF#32, 0xFEDCBA98#32, 0x76543210#32⟩)
      (expand (bytes ⟨0x01234567#32, 0x89ABCDEF#32, 0xFEDCBA98#32, 0x76543210#32⟩))
    = bytes ⟨0x681EDF34#32, 0xD206965E#32, 0x86B3E94F#32, 0x536E4246#32⟩

/-- R176, BLOCK_REV: the result, then the errors in their order, that it undoes BLOCK_FWD, and the rule's example. -/
def Obligations.BlockRevCommandResult : Prop :=
  decode 0x00000032#32 = .ok .blockRev ∧
  (∀ (s : State) (S : Snapshot), s.inflight = some S → capacityOk s.nIn → S.inLen = 16#32 → S.keyLen = 16#8 →
    ∃ t, exec .blockRev s = .next t ∧ t.status = ⟨false, true, false, 0#4, S.opcode⟩ ∧ t.outLen = 16#32 ∧
      t.outputIs (processBlock (inputBytes S) (expand (bytes (keyWords S))).reverse)) ∧
  (∀ (s : State) (S : Snapshot), s.inflight = some S → S.inLen ≠ 16#32 →
    ∃ t, exec .blockRev s = .next t ∧ t.status = ⟨false, true, true, 4#4, S.opcode⟩ ∧ t.outLen = 0#32) ∧
  (∀ (s : State) (S : Snapshot), s.inflight = some S → capacityOk s.nIn → S.inLen = 16#32 → S.keyLen ≠ 16#8 →
    ∃ t, exec .blockRev s = .next t ∧ t.status = ⟨false, true, true, 1#4, S.opcode⟩ ∧ t.outLen = 0#32) ∧
  (∀ key block : List Byte, key.length = 16 → block.length = 16 →
    processBlock (processBlock block (expand key)) (expand key).reverse = block) ∧
  processBlock (bytes ⟨0x681EDF34#32, 0xD206965E#32, 0x86B3E94F#32, 0x536E4246#32⟩)
      (expand (bytes ⟨0x01234567#32, 0x89ABCDEF#32, 0xFEDCBA98#32, 0x76543210#32⟩)).reverse
    = bytes ⟨0x01234567#32, 0x89ABCDEF#32, 0xFEDCBA98#32, 0x76543210#32⟩

/-- R199, ECB_ENC: the result and its length, the errors in their order, and the rule's corner cases and example. -/
def Obligations.EcbEncCommandResult : Prop :=
  decode 0x00000041#32 = .ok .ecbEnc ∧
  (∀ (s : State) (S : Snapshot), s.inflight = some S → capacityOk s.nIn → S.inLen.toNat ≤ s.nIn → S.keyLen = 16#8 →
    ∃ t, exec .ecbEnc s = .next t ∧ t.status = ⟨false, true, false, 0#4, S.opcode⟩ ∧
      t.outLen.toNat = S.inLen.toNat + 16 - S.inLen.toNat % 16 ∧ t.outLen.toNat ≤ s.nIn + 16 ∧
      t.outputIs (encrypt (inputBytes S) (bytes (keyWords S)))) ∧
  (∀ (s : State) (S : Snapshot), s.inflight = some S → s.nIn < S.inLen.toNat →
    ∃ t, exec .ecbEnc s = .next t ∧ t.status = ⟨false, true, true, 4#4, S.opcode⟩ ∧ t.outLen = 0#32) ∧
  (∀ (s : State) (S : Snapshot), s.inflight = some S → S.inLen.toNat ≤ s.nIn → S.keyLen ≠ 16#8 →
    ∃ t, exec .ecbEnc s = .next t ∧ t.status = ⟨false, true, true, 1#4, S.opcode⟩ ∧ t.outLen = 0#32) ∧
  pad [] = List.replicate 16 0x10#8 ∧
  (∀ p : List Byte, p.length = 16 → pad p = p ++ List.replicate 16 0x10#8) ∧
  (∀ p : List Byte, p.length = 15 → pad p = p ++ [0x01#8]) ∧
  encrypt [0x61#8, 0x62#8, 0x63#8] (bytes ⟨0x01234567#32, 0x89ABCDEF#32, 0xFEDCBA98#32, 0x76543210#32⟩)
    = bytes ⟨0x1055435B#32, 0x9ECE6123#32, 0x44F8E100#32, 0x16C4943B#32⟩

/-- R200, ECB_DEC: the result and its length, the errors in their order, and the rule's corner case and example. -/
def Obligations.EcbDecCommandResult : Prop :=
  decode 0x00000042#32 = .ok .ecbDec ∧
  (∀ (s : State) (S : Snapshot), s.inflight = some S → capacityOk s.nIn → S.inLen.toNat ≤ s.nIn →
    S.inLen.toNat ≠ 0 → S.inLen.toNat % 16 = 0 → S.keyLen = 16#8 →
    let q := processBlocks (expand (bytes (keyWords S))).reverse (inputBytes S)
    let n := (q.getD (S.inLen.toNat - 1) 0).toNat
    (1 ≤ n → n ≤ 16 →
      ∃ t, exec .ecbDec s = .next t ∧ t.status = ⟨false, true, false, 0#4, S.opcode⟩ ∧
        t.outLen.toNat = S.inLen.toNat - n ∧ t.outputIs (q.take (S.inLen.toNat - n))) ∧
    ((n = 0 ∨ 16 < n) →
      ∃ t, exec .ecbDec s = .next t ∧ t.status = ⟨false, true, true, 3#4, S.opcode⟩ ∧ t.outputIs [])) ∧
  (∀ (s : State) (S : Snapshot), s.inflight = some S → s.nIn < S.inLen.toNat →
    ∃ t, exec .ecbDec s = .next t ∧ t.status = ⟨false, true, true, 4#4, S.opcode⟩ ∧ t.outputIs []) ∧
  (∀ (s : State) (S : Snapshot), s.inflight = some S → S.inLen.toNat ≤ s.nIn →
    (S.inLen.toNat = 0 ∨ S.inLen.toNat % 16 ≠ 0) →
    ∃ t, exec .ecbDec s = .next t ∧ t.status = ⟨false, true, true, 2#4, S.opcode⟩ ∧ t.outputIs []) ∧
  (∀ (s : State) (S : Snapshot), s.inflight = some S → S.inLen.toNat ≤ s.nIn → S.inLen.toNat ≠ 0 →
    S.inLen.toNat % 16 = 0 → S.keyLen ≠ 16#8 →
    ∃ t, exec .ecbDec s = .next t ∧ t.status = ⟨false, true, true, 1#4, S.opcode⟩ ∧ t.outputIs []) ∧
  (∀ key : List Byte, key.length = 16 → decrypt (encrypt [] key) key = .ok []) ∧
  (∀ key : List Byte, key.length = 16 →
    decrypt (processBlock ((List.range 15).map (fun i => BitVec.ofNat 8 (0x20 + i)) ++ [0x03#8]) (expand key)) key
      = .ok ((List.range 13).map fun i => BitVec.ofNat 8 (0x20 + i))) ∧
  decrypt (bytes ⟨0x1055435B#32, 0x9ECE6123#32, 0x44F8E100#32, 0x16C4943B#32⟩)
      (bytes ⟨0x01234567#32, 0x89ABCDEF#32, 0xFEDCBA98#32, 0x76543210#32⟩)
    = .ok [0x61#8, 0x62#8, 0x63#8]

/-- R75, R80: the frame of the word commands SBOX, TAU, LIN_LP, T_KEY, LIN_L, T_ROUND: they read ARG only, cannot fail,
write RESULT and STATUS, and touch neither OUT_LEN nor any byte of OUT_BUF or IN_BUF nor any other register. -/
def Obligations.WordCommandFrame : Prop :=
  (∀ (i : Instr) (s t : State), isWordCommand i = true → exec i s = .next t →
    s.sameInputs t ∧ s.sameSurroundings t ∧
    t.outLen = s.outLen ∧ (∀ j, t.outBuf.read j = s.outBuf.read j) ∧ (∀ j, t.inBuf.read j = s.inBuf.read j) ∧
    t.status.err = false ∧ t.inflight = none) ∧
  (∀ (i : Instr) (s s' t t' : State) (S S' : Snapshot), isWordCommand i = true →
    s.inflight = some S → s'.inflight = some S' → S.arg = S'.arg →
    exec i s = .next t → exec i s' = .next t' → t.result = t'.result)

/-- R75, R79, R81, R37: the frame of the buffer commands KEY_EXPAND, BLOCK_FWD, BLOCK_REV, ECB_ENC, ECB_DEC: they write
OUT_LEN, OUT_BUF and STATUS and touch neither RESULT nor any byte of IN_BUF nor any other register. On success the bytes
stored are OUT[0..OUT_LEN) and every other byte of OUT_BUF is unspecified; on an error every byte is. -/
def Obligations.BufferCommandFrame : Prop :=
  ∀ (i : Instr) (s t : State), isWordCommand i = false → exec i s = .next t →
    s.sameInputs t ∧ s.sameSurroundings t ∧
    t.result = s.result ∧ (∀ j, t.inBuf.read j = s.inBuf.read j) ∧
    (∀ j, t.outLen.toNat ≤ j → visibleOut t j = none) ∧
    (t.status.err = true → t.outLen = 0#32) ∧ (capacityOk s.nIn → t.outLen.toNat ≤ s.nIn + 16) ∧ t.inflight = none

/-- R79, R85: a command in flight always completes, with BUSY = 0 and DONE = 1 and the OPCODE of its word; what it
delivers is a function of the snapshot alone (with N_IN). With none in flight (log 10, the model's
choice) the meaning stops. -/
def Obligations.CompletionDependsOnSnapshotOnly : Prop :=
  (∀ (i : Instr) (s : State) (S : Snapshot), s.inflight = some S →
    ∃ t, exec i s = .next t ∧ t.status.busy = false ∧ t.status.done = true ∧ t.status.opcode = S.opcode ∧
      t.inflight = none) ∧
  (∀ (i : Instr) (s s' t t' : State), s.inflight.isSome = true → s.inflight = s'.inflight → s.nIn = s'.nIn →
    exec i s = .next t → exec i s' = .next t' →
    t.status = t'.status ∧
    (isWordCommand i = true → t.result = t'.result) ∧
    (isWordCommand i = false → t.outLen = t'.outLen ∧ t.outBuf = t'.outBuf)) ∧
  (∀ (i : Instr) (s : State), s.inflight = none → exec i s = .fault .noCommandInFlight)

/-! ## Errors -/

/-- R224: the one error each command reports, in its check order; an illegal word reports 5 only. -/
def Obligations.ErrorPriority : Prop :=
  ∀ (s t : State) (S : Snapshot), s.inflight = some S → capacityOk s.nIn →
    (exec .keyExpand s = .next t →
      t.status.errcode = if S.keyLen ≠ 16#8 then 1#4 else 0#4) ∧
    (exec .blockFwd s = .next t ∨ exec .blockRev s = .next t →
      t.status.errcode
        = if s.nIn < S.inLen.toNat ∨ S.inLen.toNat ≠ 16 then 4#4 else if S.keyLen ≠ 16#8 then 1#4 else 0#4) ∧
    (exec .ecbEnc s = .next t →
      t.status.errcode = if s.nIn < S.inLen.toNat then 4#4 else if S.keyLen ≠ 16#8 then 1#4 else 0#4) ∧
    (exec .ecbDec s = .next t →
      t.status.errcode
        = if s.nIn < S.inLen.toNat then 4#4
          else if S.inLen.toNat = 0 ∨ S.inLen.toNat % 16 ≠ 0 then 2#4
          else if S.keyLen ≠ 16#8 then 1#4
          else
            let q := processBlocks (expand (bytes (keyWords S))).reverse (inputBytes S)
            let n := (q.getD (S.inLen.toNat - 1) 0).toNat
            if n = 0 ∨ 16 < n then 3#4 else 0#4) ∧
    (s.rst = false → s.status.busy = true → (∀ i, decode S.cmd ≠ .ok i) →
      coreStep s = .next t → t.status.errcode = 5#4)

/-- R221, R222: an error ends a buffer command with STATUS {0, 1, 1, c, OPCODE}, OUT_LEN 0 and no output byte visible;
RESULT, KEY_LEN, IN_LEN, ARG, the key registers and IN_BUF are unchanged. -/
def Obligations.ErrorLeavesNoOutput : Prop :=
  ∀ (i : Instr) (s t : State) (S : Snapshot), s.inflight = some S → exec i s = .next t → t.status.err = true →
    (∃ c, c ≠ 0#4 ∧ t.status = ⟨false, true, true, c, S.opcode⟩) ∧
    t.outLen = 0#32 ∧ (∀ j, visibleOut t j = none) ∧
    t.result = s.result ∧ t.keyLen = s.keyLen ∧ t.inLen = s.inLen ∧ t.arg = s.arg ∧ t.key = s.key ∧ t.inBuf = s.inBuf

/-- R73: which words are illegal; an illegal command is issued like any other, completes with error 5 and changes no
register other than STATUS. -/
def Obligations.IllegalCommandChangesOnlyStatus : Prop :=
  (∀ v : Word, v.extractLsb' 8 24 ≠ 0#24 → ∀ i, decode v ≠ .ok i) ∧
  (∀ v : Word,
    (let o := (v.extractLsb' 0 8).toNat
     o = 0 ∨ (0x03 ≤ o ∧ o ≤ 0x10) ∨ (0x14 ≤ o ∧ o ≤ 0x20) ∨ (0x23 ≤ o ∧ o ≤ 0x30) ∨ (0x33 ≤ o ∧ o ≤ 0x40) ∨ 0x43 ≤ o) →
    ∀ i, decode v ≠ .ok i) ∧
  (∀ (s : State) (v : Word), (∀ i, decode v ≠ .ok i) → s.rst = false → s.status.busy = false →
    hostAccess (.write32 0#18 v) s = s.issue v) ∧
  (∀ (s : State) (S : Snapshot), s.rst = false → s.status.busy = true → s.inflight = some S →
    (∀ i, decode S.cmd ≠ .ok i) →
    ∃ t, coreStep s = .next t ∧ t.status = ⟨false, true, true, 5#4, S.cmd.extractLsb' 0 8⟩ ∧
      s.sameInputs t ∧ s.sameOutputs t ∧ s.sameSurroundings t ∧ t.inflight = none)

/-! ## Issue and completion -/

/-- R78: a CMD write at BUSY = 0 issues the word, legal or not: STATUS and the snapshot; no other state is written. The
same write at BUSY = 1 is a protocol fault and issues nothing. -/
def Obligations.CmdWriteIssuesCommand : Prop :=
  (∀ (s : State) (v : Word), s.rst = false → s.status.busy = false →
    hostAccess (.write32 0x000#18 v) s = { s with
      status := ⟨true, false, false, 0#4, v.extractLsb' 0 8⟩
      inflight := some { cmd := v, key := s.key, keyLen := s.keyLen, inLen := s.inLen, arg := s.arg, inBuf := s.inBuf,
                         resetDraw := s.resetDraw } }) ∧
  (∀ (s : State) (v : Word), s.status.busy = true →
    hostAccess (.write32 0x000#18 v) s = { s with fault := true })

/-- R79, R85 (with the model's turns, log 6): when the core completes the command in flight, the step is exec of the
instruction its word decodes to, in the state with that turn taken; a core turn that does not complete changes nothing
else; a host turn is that access; and a word placed by withFetchWord is run by the very next step (log 7). -/
def Obligations.StepRunsDecodedCommand : Prop :=
  (∀ (s : State) (S : Snapshot) (i : Instr), s.fault = false → s.rst = false → s.status.busy = true →
    s.inflight = some S → decode S.cmd = .ok i →
    (s.inputs = [] → step s = exec i s) ∧
    (∀ rest, s.inputs = .coreDone :: rest → step s = exec i { s with inputs := rest }) ∧
    (∀ rest, s.inputs = .coreWork :: rest → step s = .next { s with inputs := rest })) ∧
  (∀ (s : State) (a : HostAccess) (rest : List Turn), s.fault = false → s.inputs = .access a :: rest →
    step s = .next (hostAccess a { s with inputs := rest })) ∧
  (∀ (s : State) (w : Nat) (i : Instr), decodeTableWord 32 w = some i →
    step (s.withFetchWord 32 w)
      = exec i { s.issue (BitVec.ofNat 32 w) with fault := false, rst := false, inputs := s.inputs })

/-- R57 (a), R253, R84: after LOADKEY and LOADIN the next CMD write's command sees exactly that key and those bytes. -/
def Obligations.CommandSeesLoadedKeyAndInput : Prop :=
  ∀ (s : State) (k0 k1 k2 k3 : Word) (p : List Byte) (v : Word),
    s.rst = false → s.status.busy = false → s.nIn ≤ 65520 → p.length ≤ s.nIn →
    let accesses := [HostAccess.write32 0x020#18 k0, .write32 0x024#18 k1, .write32 0x028#18 k2, .write32 0x02C#18 k3,
        .write32 0x008#18 16#32]
      ++ (List.range p.length).map (fun i => HostAccess.write8 (BitVec.ofNat 18 (0x10000 + i)) (p.getD i 0))
      ++ [HostAccess.write32 0x00C#18 (BitVec.ofNat 32 p.length), .write32 0x000#18 v]
    let t := accesses.foldl (fun u a => hostAccess a u) s
    t.fault = s.fault ∧
    ∃ S, t.inflight = some S ∧ S.cmd = v ∧ S.keyLen = 16#8 ∧ keyWords S = ⟨k0, k1, k2, k3⟩ ∧ inputBytes S = p

/-- R259 (with the model's turns, log 6): a BUSY state is never final. From every state that meets the invariant with no
protocol fault, within as many steps as there are turns to come, and one more, BUSY is 0 or a protocol fault has
happened. -/
def Obligations.BusyStateAlwaysCompletes : Prop :=
  ∀ s : State, s.Inv → s.fault = false → s.status.busy = true →
    ∃ k t, k ≤ s.inputs.length + 1 ∧ Host.Core.run core k s = .next t ∧ (t.status.busy = false ∨ t.fault = true)

/-- R257: the CMD write clears DONE in the step that sets BUSY, and after it, as long as the reset input is not driven,
every step leaves BUSY = 1 with DONE = 0 and the same command in flight, or completes it with its OPCODE. -/
def Obligations.NoStaleDone : Prop :=
  (∀ (s : State) (v : Word), (s.issue v).status.busy = true ∧ (s.issue v).status.done = false) ∧
  (∀ (s t : State) (S : Snapshot), s.Inv → s.inflight = some S → (∀ level rest, s.inputs ≠ .resetPin level :: rest) →
    step s = .next t →
    (t.status.busy = true ∧ t.status.done = false ∧ t.inflight = some S) ∨
    (t.status.busy = false ∧ t.status.done = true ∧ t.status.opcode = S.opcode))

/-! ## The host port -/

/-- R53, R230: which host accesses are protocol faults, by address, size, direction and BUSY; a fault sets the mark and
does nothing else. -/
def Obligations.ProtocolFaultExactlyWhen : Prop :=
  ∀ (s : State) (a : HostAccess), s.nIn ≤ 65520 → s.fault = false →
    let inputRegs := [0x000, 0x008, 0x00C, 0x014, 0x020, 0x024, 0x028, 0x02C]
    let readOnlyRegs := [0x004, 0x010, 0x018]
    let inWindow := fun (addr : Addr) => 0x10000 ≤ addr.toNat ∧ addr.toNat < 0x10000 + s.nIn
    let outWindow := fun (addr : Addr) => 0x20000 ≤ addr.toNat ∧ addr.toNat < 0x20000 + s.nIn + 16
    ((hostAccess a s).fault = true ↔
      s.rst = true ∨
      match a with
      | .read32 addr => addr.toNat ∉ inputRegs ++ readOnlyRegs
      | .read8 addr => ¬ inWindow addr ∧ ¬ outWindow addr
      | .write32 addr _ => addr.toNat ∉ inputRegs ∨ s.status.busy = true
      | .write8 addr _ => ¬ inWindow addr ∨ s.status.busy = true) ∧
    ((hostAccess a s).fault = true → hostAccess a s = { s with fault := true })

/-- R230 (with log 8): the fault mark is never cleared except by reset; until then a step stops. -/
def Obligations.FaultMarkStaysUntilReset : Prop :=
  (∀ s t : State, s.fault = true → step s = .next t →
    ∃ level rest, s.inputs = .resetPin level :: rest ∧ (t.fault = true ∨ (level = true ∧ s.rst = false))) ∧
  (∀ s : State, s.fault = true → (∀ level rest, s.inputs ≠ .resetPin level :: rest) → step s = .fault .protocolFault)

/-- R54: a read changes nothing but the port's answer (and, of an unspecified value, the count of draws); a read that
drew nothing answers the same again; a write other than to CMD, made twice, is the same as made once. -/
def Obligations.ReadsHaveNoSideEffects : Prop :=
  (∀ (s : State) (a : HostAccess), (∃ addr, a = .read32 addr ∨ a = .read8 addr) →
    (∃ d n, (n = s.draws ∨ n = s.draws + 1) ∧ hostAccess a s = { s with readData := d, draws := n }) ∨
      hostAccess a s = { s with fault := true }) ∧
  (∀ (s : State) (a : HostAccess), (∃ addr, a = .read32 addr ∨ a = .read8 addr) →
    (hostAccess a s).draws = s.draws → hostAccess a (hostAccess a s) = hostAccess a s) ∧
  (∀ (s : State) (addr : Addr) (v : Word), addr ≠ 0#18 →
    hostAccess (.write32 addr v) (hostAccess (.write32 addr v) s) = hostAccess (.write32 addr v) s) ∧
  (∀ (s : State) (addr : Addr) (v : Byte),
    hostAccess (.write8 addr v) (hostAccess (.write8 addr v) s) = hostAccess (.write8 addr v) s)

/-- R28, R29, R30, R31, R33, R36: what a 4-byte read of each register that is not an output answers: CMD and KEYj read 0,
STATUS by its layout, KEY_LEN with bits [31:8] 0, IN_LEN and ARG whole, whether or not a command is in flight. -/
def Obligations.RegisterReadsAnswer : Prop :=
  ∀ s : State, s.rst = false →
    (hostAccess (.read32 0x000#18) s).readData = some (.word 0#32) ∧
    (hostAccess (.read32 0x004#18) s).readData
      = some (.word (0#8 ++ s.status.opcode ++ 0#4 ++ s.status.errcode ++ 0#5
          ++ BitVec.ofBool s.status.err ++ BitVec.ofBool s.status.done ++ BitVec.ofBool s.status.busy)) ∧
    (hostAccess (.read32 0x008#18) s).readData = some (.word (0#24 ++ s.keyLen)) ∧
    (hostAccess (.read32 0x00C#18) s).readData = some (.word s.inLen) ∧
    (hostAccess (.read32 0x014#18) s).readData = some (.word s.arg) ∧
    (hostAccess (.read32 0x020#18) s).readData = some (.word 0#32) ∧
    (hostAccess (.read32 0x024#18) s).readData = some (.word 0#32) ∧
    (hostAccess (.read32 0x028#18) s).readData = some (.word 0#32) ∧
    (hostAccess (.read32 0x02C#18) s).readData = some (.word 0#32)

/-- R30, R31, R33, R36: what a legal 4-byte write of each input register stores, and that nothing else changes. -/
def Obligations.RegisterWritesStore : Prop :=
  ∀ (s : State) (v : Word), s.rst = false → s.status.busy = false →
    hostAccess (.write32 0x008#18 v) s = { s with keyLen := v.extractLsb' 0 8 } ∧
    hostAccess (.write32 0x00C#18 v) s = { s with inLen := v } ∧
    hostAccess (.write32 0x014#18 v) s = { s with arg := v } ∧
    hostAccess (.write32 0x020#18 v) s = { s with key := { s.key with w0 := ⟨v, true⟩ } } ∧
    hostAccess (.write32 0x024#18 v) s = { s with key := { s.key with w1 := ⟨v, true⟩ } } ∧
    hostAccess (.write32 0x028#18 v) s = { s with key := { s.key with w2 := ⟨v, true⟩ } } ∧
    hostAccess (.write32 0x02C#18 v) s = { s with key := { s.key with w3 := ⟨v, true⟩ } }

/-- R32, R34, R38, R57 (d): while BUSY = 1 a read of RESULT, OUT_LEN or OUT[i] answers a fresh draw; while BUSY = 0,
RESULT and OUT_LEN as they stand, OUT[i] below OUT_LEN its byte, and at or above OUT_LEN a fresh draw. -/
def Obligations.OutputReadsAnswer : Prop :=
  (∀ s : State, s.rst = false → s.status.busy = true → s.nIn ≤ 65520 →
    hostAccess (.read32 0x018#18) s = s.answerDrawn (.word (Config.freeResult s.draws)) ∧
    hostAccess (.read32 0x010#18) s = s.answerDrawn (.word (Config.freeOutLen s.draws)) ∧
    ∀ i, i < s.nIn + 16 →
      hostAccess (.read8 (BitVec.ofNat 18 (0x20000 + i))) s = s.answerDrawn (.byte (Config.freeOutByte s.draws))) ∧
  (∀ s : State, s.rst = false → s.status.busy = false → s.nIn ≤ 65520 →
    hostAccess (.read32 0x018#18) s = s.answer (.word s.result) ∧
    hostAccess (.read32 0x010#18) s = s.answer (.word s.outLen) ∧
    ∀ i, i < s.nIn + 16 →
      (s.outLen.toNat ≤ i →
        hostAccess (.read8 (BitVec.ofNat 18 (0x20000 + i))) s = s.answerDrawn (.byte (Config.freeOutByte s.draws))) ∧
      (∀ b, i < s.outLen.toNat → s.outBuf.read i = some b →
        hostAccess (.read8 (BitVec.ofNat 18 (0x20000 + i))) s = s.answer (.byte b)))

/-- R37, R54, R55: a byte written to IN+i is what IN+i reads, and every other byte of IN_BUF reads as before. -/
def Obligations.InputBufferReadsBackWrites : Prop :=
  ∀ (s : State) (i : Nat) (v : Byte), s.rst = false → s.status.busy = false → s.nIn ≤ 65520 → i < s.nIn →
    let t := hostAccess (.write8 (BitVec.ofNat 18 (0x10000 + i)) v) s
    t = { s with inBuf := t.inBuf } ∧
    (hostAccess (.read8 (BitVec.ofNat 18 (0x10000 + i))) t).readData = some (.byte v) ∧
    ∀ j, j < s.nIn → j ≠ i →
      (hostAccess (.read8 (BitVec.ofNat 18 (0x10000 + j))) t).readData
        = (hostAccess (.read8 (BitVec.ofNat 18 (0x10000 + j))) s).readData

/-- R36: the key is not readable back. What the port answers, now or after any one access, does not depend on the key
registers. -/
def Obligations.KeyNeverReadableOnPort : Prop :=
  ∀ (s : State) (k : Quad KeyWord) (a b : HostAccess),
    (hostAccess a { s with key := k }).readData = (hostAccess a s).readData ∧
    (hostAccess b (hostAccess a { s with key := k })).readData = (hostAccess b (hostAccess a s)).readData

/-! ## Who writes what -/

/-- R29: STATUS is written only by issue, completion and reset. -/
def Obligations.StatusWrittenOnlyByIssueCompletionReset : Prop :=
  ∀ s t : State, step s = .next t → t.status ≠ s.status →
    (∃ v rest, s.inputs = .access (.write32 0#18 v) :: rest ∧ s.status.busy = false ∧
      t.status = ⟨true, false, false, 0#4, v.extractLsb' 0 8⟩) ∨
    (s.status.busy = true ∧ (s.inputs = [] ∨ ∃ rest, s.inputs = .coreDone :: rest) ∧
      t.status.busy = false ∧ t.status.done = true) ∨
    (∃ rest, s.inputs = .resetPin true :: rest ∧ t.status = ⟨false, false, false, 0#4, 0#8⟩)

/-- R37, R87, D24: no core step writes an input register or a byte of IN_BUF; only the host's writes and reset do. -/
def Obligations.CoreNeverWritesInputs : Prop :=
  ∀ s t : State, step s = .next t →
    (∀ a rest, s.inputs ≠ .access a :: rest) → (∀ level rest, s.inputs ≠ .resetPin level :: rest) → s.sameInputs t

/-- R32, R34, R38: no host access writes RESULT, OUT_LEN or a byte of OUT_BUF; only completion and reset do. -/
def Obligations.HostNeverWritesOutputs : Prop :=
  ∀ (s t : State) (a : HostAccess) (rest : List Turn), s.inputs = .access a :: rest → step s = .next t →
    s.sameOutputs t

/-! ## Reset and the invariant -/

/-- R40: the reset table. Unspecified items carry no value: the key words are not written, no byte of either buffer is
specified. -/
def Obligations.ResetTable : Prop :=
  let s := State.reset
  s.status.toWord = 0x00000000#32 ∧ s.status = ⟨false, false, false, 0#4, 0x00#8⟩ ∧
  s.keyLen = 0#8 ∧ s.inLen = 0#32 ∧ s.outLen = 0#32 ∧ s.arg = 0#32 ∧ s.result = 0#32 ∧
  (hostAccess (.read32 0x000#18) s).readData = some (.word 0#32) ∧
  s.key.w0.written = false ∧ s.key.w1.written = false ∧ s.key.w2.written = false ∧ s.key.w3.written = false ∧
  (∀ i, s.inBuf.read i = none) ∧ (∀ i, visibleOut s i = none) ∧
  s.inflight = none ∧ s.datapath = .drawn 0

/-- R36, R37, R41, U5 and U6 of 93_implementation_defined.md (with logs 2 and 3): a key register and a byte of IN_BUF that
the host has not written since reset hold one free value each, the draw of that reset; commands compute on it and a read of
IN_BUF answers it; and it stays until the host writes that item or reset is driven. -/
def Obligations.UnwrittenOperandsAreDrawn : Prop :=
  (∀ (S : Snapshot) (j : Fin 4), quadGet (keyWords S) j = (quadGet S.key j).value) ∧
  (∀ (s : State) (v : Word) (j : Fin 4), s.Inv → (quadGet s.key j).written = false →
    quadGet (keyWords (s.snapshot v)) j = Config.resetKeyWord s.resetDraw j.val) ∧
  (∀ (S : Snapshot) (i : Nat), i < S.inLen.toNat → S.inBuf.read i = none →
    (inputBytes S)[i]? = some (Config.resetInByte S.resetDraw i)) ∧
  (∀ (S : Snapshot) (i : Nat) (b : Byte), i < S.inLen.toNat → S.inBuf.read i = some b → (inputBytes S)[i]? = some b) ∧
  (∀ (s : State) (i : Nat), s.rst = false → s.nIn ≤ 65520 → i < s.nIn → s.inBuf.read i = none →
    hostAccess (.read8 (BitVec.ofNat 18 (0x10000 + i))) s = s.answer (.byte (Config.resetInByte s.resetDraw i))) ∧
  (∀ s t : State, step s = .next t → (∀ level rest, s.inputs ≠ .resetPin level :: rest) →
    t.resetDraw = s.resetDraw ∧
    (∀ j : Fin 4, quadGet t.key j ≠ quadGet s.key j →
      ∃ v rest, s.inputs = .access (.write32 (BitVec.ofNat 18 (0x020 + 4 * j.val)) v) :: rest) ∧
    (∀ i, t.inBuf.read i ≠ s.inBuf.read i →
      ∃ v rest, s.inputs = .access (.write8 (BitVec.ofNat 18 (0x10000 + i)) v) :: rest))

/-- R250, R251 (as the model shows the reset input, log 9): asserting rst puts every register at its reset value and
aborts the command in flight; while it is asserted no command runs and every host access is a protocol fault;
deasserting it leaves that state. -/
def Obligations.ResetPinAbortsAndClears : Prop :=
  (∀ s : State, s.rst = false →
    let t := (s.drivePin true).drivePin false
    t.status = ⟨false, false, false, 0#4, 0#8⟩ ∧ t.keyLen = 0#8 ∧ t.inLen = 0#32 ∧ t.outLen = 0#32 ∧ t.arg = 0#32 ∧
    t.result = 0#32 ∧ t.key.w0.written = false ∧ t.key.w1.written = false ∧ t.key.w2.written = false ∧
    t.key.w3.written = false ∧ (∀ i, t.inBuf.read i = none) ∧ (∀ i, t.outBuf.read i = none) ∧ t.inflight = none ∧
    t.fault = false ∧ t.rst = false ∧ t.inputs = s.inputs ∧ t.nIn = s.nIn) ∧
  (∀ s : State, s.rst = true → (∀ a, hostAccess a s = { s with fault := true }) ∧ coreStep s = .next s)

/-- The invariant holds at reset. -/
def Obligations.InvariantHoldsAtReset : Prop := State.reset.Inv

/-- R26, R29, R32, R36, R37, R38, R250: every step keeps the invariant: the flags stay a legal combination, a snapshot is held
exactly while BUSY = 1 and equals the live registers, the buffers stay in canonical form inside their capacities, OUT_LEN
is the number of output bytes and at most N_IN + 16, and an unwritten key register still holds the draw of its reset
(U5, log 2). -/
def Obligations.EveryStepKeepsInvariant : Prop :=
  ∀ s t : State, s.Inv → step s = .next t → t.Inv

/-! ## The machine as a cipher -/

/-- R198 (a), R199, R200 on the machine: what ECB_ENC delivers, given back as the input of ECB_DEC under the same key,
delivers the original bytes. -/
def Obligations.EcbDecDeliversWhatEcbEncTook : Prop :=
  ∀ (s s' : State) (S S' : Snapshot), s.inflight = some S → s'.inflight = some S' →
    capacityOk s.nIn → capacityOk s'.nIn → S.keyLen = 16#8 → S'.keyLen = 16#8 →
    S.inLen.toNat < s.nIn → s'.nIn = s.nIn →
    keyWords S' = keyWords S →
    ∃ t c, exec .ecbEnc s = .next t ∧ t.outputIs c ∧ t.status.err = false ∧
      (inputBytes S' = c →
        ∃ t', exec .ecbDec s' = .next t' ∧ t'.outputIs (inputBytes S) ∧ t'.status.err = false)
end

