-- ==== Sys2Proof/Laws/Packing.lean ====
section
/-! SUPPORT. Lengths and inverses of the big-endian packing (spec/00_scope.md R11), the members of four, and rotation under XOR (R10). -/

namespace Sys2Proof.Machine

@[simp] theorem quadGet_quadSet_same {α : Type} (q : Quad α) (j : Fin 4) (a : α) : quadGet (quadSet q j a) j = a := by
  match j with | 0 | 1 | 2 | 3 => rfl

theorem quadGet_quadSet_other {α : Type} (q : Quad α) (i j : Fin 4) (a : α) (h : i ≠ j) :
    quadGet (quadSet q j a) i = quadGet q i := by
  match i, j with
  | 0, 0 | 1, 1 | 2, 2 | 3, 3 => exact absurd rfl h
  | 0, 1 | 0, 2 | 0, 3 | 1, 0 | 1, 2 | 1, 3 | 2, 0 | 2, 1 | 2, 3 | 3, 0 | 3, 1 | 3, 2 => rfl

@[simp] theorem unbe32_length (w : Word) : (unbe32 w).length = 4 := rfl

@[simp] theorem bytes_length (w : Quad Word) : (bytes w).length = 16 := rfl

theorem byte_of_be32 (b0 b1 b2 b3 : Byte) :
    (be32 b0 b1 b2 b3).extractLsb' 24 8 = b0 ∧ (be32 b0 b1 b2 b3).extractLsb' 16 8 = b1 ∧
    (be32 b0 b1 b2 b3).extractLsb' 8 8 = b2 ∧ (be32 b0 b1 b2 b3).extractLsb' 0 8 = b3 := by
  refine ⟨?_, ?_, ?_, ?_⟩ <;>
  · apply BitVec.eq_of_getLsbD_eq
    intro i hi
    simp only [be32, BitVec.getLsbD_extractLsb', BitVec.getLsbD_append, hi, decide_true, Bool.true_and]
    repeat' split
    all_goals first
      | omega
      | (congr 1; omega)

theorem unbe32_be32 (b0 b1 b2 b3 : Byte) : unbe32 (be32 b0 b1 b2 b3) = [b0, b1, b2, b3] := by
  obtain ⟨h0, h1, h2, h3⟩ := byte_of_be32 b0 b1 b2 b3
  simp only [unbe32, h0, h1, h2, h3]

theorem be32_of_bytes (w : Word) :
    be32 (w.extractLsb' 24 8) (w.extractLsb' 16 8) (w.extractLsb' 8 8) (w.extractLsb' 0 8) = w := by
  apply BitVec.eq_of_getLsbD_eq
  intro i hi
  simp only [be32, BitVec.getLsbD_extractLsb', BitVec.getLsbD_append]
  by_cases h1 : i < 8
  · simp [h1]
  by_cases h2 : i - 8 < 8
  · simp only [h1, h2, if_false, if_true, decide_true, decide_false, Bool.true_and]
    congr 1; omega
  by_cases h3 : i - 8 - 8 < 8
  · simp only [h1, h2, h3, if_false, if_true, decide_true, decide_false, Bool.true_and]
    congr 1; omega
  · have h4 : i - 8 - 8 - 8 < 8 := by omega
    simp only [h1, h2, h3, h4, if_false, decide_true, decide_false, Bool.true_and]
    congr 1; omega

theorem words_bytes (w : Quad Word) : words (bytes w) = w := by
  obtain ⟨a, b, c, d⟩ := w
  simp only [words, wordAt, bytes, unbe32, List.cons_append, List.nil_append, Nat.mul_zero, Nat.zero_add,
    Nat.mul_one, List.getD_cons_zero, List.getD_cons_succ]
  simp [be32_of_bytes]

theorem bytes_words (b : List Byte) (h : b.length = 16) : bytes (words b) = b := by
  match b, h with
  | [b0, b1, b2, b3, b4, b5, b6, b7, b8, b9, b10, b11, b12, b13, b14, b15], _ =>
    simp [words, wordAt, bytes, unbe32_be32]

theorem rotl32_xor (a b : Word) (n : Nat) : rotl32 (a ^^^ b) n = rotl32 a n ^^^ rotl32 b n := by
  apply BitVec.eq_of_getLsbD_eq
  intro i hi
  simp only [rotl32, BitVec.getLsbD_or, BitVec.getLsbD_shiftLeft, BitVec.getLsbD_ushiftRight, BitVec.getLsbD_xor]
  by_cases h : i < n
  · simp [h]
  · by_cases h2 : 32 ≤ n
    · omega
    · have h3 : ∀ x : Word, x.getLsbD (32 - n + i) = false := fun x => BitVec.getLsbD_of_ge x _ (by omega)
      simp [h, hi, h3]

theorem rotl32_getLsbD (x : Word) (n i : Nat) (hn : n < 32) (hi : i < 32) :
    (rotl32 x n).getLsbD i = x.getLsbD ((i + 32 - n) % 32) := by
  simp only [rotl32, BitVec.getLsbD_or, BitVec.getLsbD_shiftLeft, BitVec.getLsbD_ushiftRight]
  by_cases h : i < n
  · rw [Nat.mod_eq_of_lt (by omega)]
    simp [h, hi]; congr 1; omega
  · rw [show i + 32 - n = i - n + 32 by omega, Nat.add_mod_right, Nat.mod_eq_of_lt (by omega)]
    have h3 : x.getLsbD (32 - n + i) = false := BitVec.getLsbD_of_ge x _ (by omega)
    simp [h, hi, h3]

/-- A rotation after a rotation is the rotation by the sum, modulo 32. -/
theorem rotl32_rotl32 (x : Word) (m n : Nat) (hm : m < 32) (hn : n < 32) :
    rotl32 (rotl32 x m) n = rotl32 x ((m + n) % 32) := by
  apply BitVec.eq_of_getLsbD_eq
  intro i hi
  rw [rotl32_getLsbD _ _ _ hn hi, rotl32_getLsbD _ _ _ hm (Nat.mod_lt _ (by omega)),
    rotl32_getLsbD _ _ _ (Nat.mod_lt _ (by omega)) hi]
  congr 1; omega

end Sys2Proof.Machine
end

