-- ==== Sys2Proof/Laws/Cipher.lean ====
section
/-! SUPPORT. Lengths through the key schedule, the Feistel engine and the codec, and the windows round by round. -/

namespace Sys2Proof.Machine

@[simp] theorem expandFrom_length (k : Quad Word) (cks : List Word) : (expandFrom k cks).length = cks.length := by
  induction cks generalizing k with
  | nil => rfl
  | cons c cs ih => simp [expandFrom, ih]

@[simp] theorem ckTable_length : ckTable.length = 32 := rfl

/-- R6: "A round-key schedule is exactly 32 words." -/
@[simp] theorem expand_length (key : List Byte) : (expand key).length = 32 := by simp [expand]

/-- A block out for every block in (R170). -/
@[simp] theorem processBlock_length (b : List Byte) (rks : List Word) : (processBlock b rks).length = 16 := rfl

/-- R129: four bytes for each round key. -/
@[simp] theorem scheduleBytes_length (rks : List Word) : (scheduleBytes rks).length = 4 * rks.length := by
  induction rks with
  | nil => rfl
  | cons r rs ih => simp [scheduleBytes] at ih ⊢; omega

/-- The window after a round, and the word it derives (R171). -/
@[simp] theorem feistelRound_eq (x : Quad Word) (rk : Word) :
    feistelRound x rk = ⟨x.w1, x.w2, x.w3, nextBlockWord x rk⟩ := rfl

@[simp] theorem reverseWindow_reverseWindow (x : Quad Word) : reverseWindow (reverseWindow x) = x := rfl

/-- R190: the pad is 1 to 16 bytes. -/
theorem padLength_bounds (p : List Byte) : 1 ≤ padLength p ∧ padLength p ≤ 16 := by
  unfold padLength; omega

theorem pad_length (p : List Byte) : (pad p).length = p.length + padLength p := by simp [pad]

theorem pad_length_mod (p : List Byte) : (pad p).length % 16 = 0 := by
  rw [pad_length]; unfold padLength; omega

theorem blockAt_length (q : List Byte) (j : Nat) (h : j < q.length / 16) : (blockAt q j).length = 16 := by
  simp only [blockAt, List.length_take, List.length_drop]; omega

@[simp] theorem split_length (q : List Byte) : (split q).length = q.length / 16 := by simp [split]

/-- Every block of split has 16 bytes (R191). -/
theorem length_of_mem_split (q b : List Byte) (h : b ∈ split q) : b.length = 16 := by
  simp only [split, List.mem_map, List.mem_range] at h
  obtain ⟨j, hj, rfl⟩ := h
  exact blockAt_length q j hj

/-- Blocks of 16 bytes joined (R192). -/
theorem join_length (bs : List (List Byte)) (h : ∀ b ∈ bs, b.length = 16) : (join bs).length = 16 * bs.length := by
  induction bs with
  | nil => rfl
  | cons b bs ih =>
    have h1 := h b (by simp)
    have h2 := ih fun c hc => h c (by simp [hc])
    simp only [join, List.flatten_cons, List.length_append, List.length_cons] at h2 ⊢
    omega

theorem blockAt_join_zero (b : List Byte) (bs : List (List Byte)) (h : b.length = 16) :
    blockAt (join (b :: bs)) 0 = b := by
  simp [blockAt, join, ← h]

theorem blockAt_join_succ (b : List Byte) (bs : List (List Byte)) (j : Nat) (h : b.length = 16) :
    blockAt (join (b :: bs)) (j + 1) = blockAt (join bs) j := by
  have e : 16 * (j + 1) = b.length + 16 * j := by omega
  simp only [blockAt, join, List.flatten_cons, e]
  rw [List.drop_append, List.drop_eq_nil_of_le (by omega)]
  simp

/-- R192: block j of joined blocks is block j. -/
theorem blockAt_join (bs : List (List Byte)) (h : ∀ b ∈ bs, b.length = 16) (j : Nat) (hj : j < bs.length) :
    blockAt (join bs) j = bs[j] := by
  induction bs generalizing j with
  | nil => simp at hj
  | cons b bs ih =>
    cases j with
    | zero => simpa using blockAt_join_zero b bs (h b (by simp))
    | succ j =>
      rw [blockAt_join_succ b bs j (h b (by simp))]
      simpa using ih (fun c hc => h c (by simp [hc])) j (by simpa using hj)

/-- A pass over whole blocks keeps the length (R193, R195). -/
theorem processBlocks_length (rks : List Word) (q : List Byte) (h : q.length % 16 = 0) :
    (processBlocks rks q).length = q.length := by
  have := join_length ((split q).map fun b => processBlock b rks) (by simp)
  simp only [processBlocks, this, List.length_map, split_length]
  omega

/-- Output block j of a pass is input block j processed (R197). -/
theorem blockAt_processBlocks (rks : List Word) (q : List Byte) (j : Nat) (h : j < q.length / 16) :
    blockAt (processBlocks rks q) j = processBlock (blockAt q j) rks := by
  rw [processBlocks, blockAt_join _ (by simp) j (by simpa using h)]
  simp [split]

end Sys2Proof.Machine
end

