-- ==== Sys2Proof/Laws/Memory.lean ====
section
/-! SUPPORT. The laws of the buffers: reading after writing, the bytes of an output, and that every operation keeps the
canonical form and the capacity. -/

namespace Sys2Proof.Machine.Memory

theorem read_write_same (m : Memory) (i : Nat) (v : Byte) : Memory.read (Memory.write m i v) i = some v := by
  induction m with
  | nil => simp [write, read]
  | cons c m ih =>
    obtain ⟨a, b⟩ := c
    simp only [write]
    split
    · simp [read]
    · split
      · simp [read]
      · simp [read, *]

theorem read_write_other (m : Memory) (i j : Nat) (v : Byte) (h : j ≠ i) :
    Memory.read (Memory.write m i v) j = Memory.read m j := by
  induction m with
  | nil => simp [write, read, Ne.symm h]
  | cons c m ih =>
    obtain ⟨a, b⟩ := c
    simp only [write]
    split
    · simp [read, Ne.symm h]
    · split
      · subst a; simp [read, Ne.symm h]
      · simp [read, ih]

/-- Writing the same byte twice is writing it once (R54). -/
theorem write_write (m : Memory) (i : Nat) (v : Byte) :
    Memory.write (Memory.write m i v) i v = Memory.write m i v := by
  induction m with
  | nil => simp [write]
  | cons c m ih =>
    obtain ⟨a, b⟩ := c
    simp only [write]
    split
    · simp [write]
    · split
      · simp [write]
      · simp [write, *]

theorem wfFrom_mono {i j : Nat} (m : Memory) (h : i ≤ j) (hw : wfFrom j m = true) : wfFrom i m = true := by
  cases m with
  | nil => rfl
  | cons c m =>
    simp only [wfFrom, Bool.and_eq_true, decide_eq_true_eq] at hw ⊢
    exact ⟨by omega, hw.2⟩

theorem wfFrom_write (m : Memory) (k i : Nat) (v : Byte) (h : k ≤ i) (hw : wfFrom k m = true) :
    wfFrom k (Memory.write m i v) = true := by
  induction m generalizing k with
  | nil => simp [write, wfFrom, h]
  | cons c m ih =>
    obtain ⟨a, b⟩ := c
    simp only [wfFrom, Bool.and_eq_true, decide_eq_true_eq] at hw
    simp only [write]
    split
    · simp only [wfFrom, Bool.and_eq_true, decide_eq_true_eq]
      exact ⟨h, by omega, hw.2⟩
    · split
      · subst a; simp only [wfFrom, Bool.and_eq_true, decide_eq_true_eq]; exact ⟨h, hw.2⟩
      · simp only [wfFrom, Bool.and_eq_true, decide_eq_true_eq]
        exact ⟨hw.1, ih (a + 1) (by omega) hw.2⟩

/-- A write keeps the canonical form. -/
theorem wf_write (m : Memory) (i : Nat) (v : Byte) (h : wf m = true) : wf (Memory.write m i v) = true :=
  wfFrom_write m 0 i v (Nat.zero_le i) h

/-- A write inside the capacity keeps every index inside it. -/
theorem below_write (m : Memory) (n i : Nat) (v : Byte) (hi : i < n) (h : below n m = true) :
    below n (Memory.write m i v) = true := by
  induction m with
  | nil => simp [write, below, hi]
  | cons c m ih =>
    obtain ⟨a, b⟩ := c
    simp only [below, List.all_cons, Bool.and_eq_true, decide_eq_true_eq] at h ih ⊢
    simp only [write]
    split
    · simp [hi, h.1, h.2]
    · split
      · simp [hi, h.2]
      · simp [h.1, ih h.2]

theorem read_ofBytesFrom (b : List Byte) (k i : Nat) :
    Memory.read (ofBytesFrom k b) i = if k ≤ i then b[i - k]? else none := by
  induction b generalizing k with
  | nil => simp [ofBytesFrom, read]
  | cons x b ih =>
    simp only [ofBytesFrom, read, ih]
    by_cases h : k = i
    · subst k; simp
    · by_cases h' : k ≤ i
      · have e : i - k = (i - (k + 1)) + 1 := by omega
        have h2 : k + 1 ≤ i := by omega
        simp [h, h', h2, e]
      · have h2 : ¬ k + 1 ≤ i := by omega
        simp [h, h', h2]

/-- Byte i of an output is its i-th byte (R79). -/
theorem read_ofBytes (b : List Byte) (i : Nat) : Memory.read (ofBytes b) i = b[i]? := by
  simp [ofBytes, read_ofBytesFrom]

theorem wfFrom_ofBytesFrom (b : List Byte) (k : Nat) : wfFrom k (ofBytesFrom k b) = true := by
  induction b generalizing k with
  | nil => rfl
  | cons x b ih => simp [ofBytesFrom, wfFrom, ih]

/-- An output is in canonical form. -/
theorem wf_ofBytes (b : List Byte) : wf (ofBytes b) = true := wfFrom_ofBytesFrom b 0

theorem below_ofBytesFrom (b : List Byte) (k : Nat) : below (k + b.length) (ofBytesFrom k b) = true := by
  induction b generalizing k with
  | nil => rfl
  | cons x b ih =>
    have h := ih (k + 1)
    rw [show k + 1 + b.length = k + (x :: b).length by simp only [List.length_cons]; omega] at h
    simp only [below, ofBytesFrom, List.all_cons, Bool.and_eq_true, decide_eq_true_eq] at h ⊢
    exact ⟨by simp, h⟩

/-- An output's indices are below its length. -/
theorem below_ofBytes (b : List Byte) : below b.length (ofBytes b) = true := by
  simpa [ofBytes] using below_ofBytesFrom b 0

@[simp] theorem ofBytes_nil : ofBytes [] = [] := rfl

@[simp] theorem read_nil (i : Nat) : Memory.read [] i = none := rfl

end Sys2Proof.Machine.Memory
end

