-- ==== Sys2Proof/Laws/State.lean ====
section
/-! SUPPORT. One lemma per field of State and named update: what the update leaves in the field. Later proofs use these
and unfold no record update. -/

namespace Sys2Proof.Machine

variable (s : State)

@[simp] theorem markFault_status : s.markFault.status = s.status := rfl
@[simp] theorem markFault_keyLen : s.markFault.keyLen = s.keyLen := rfl
@[simp] theorem markFault_inLen : s.markFault.inLen = s.inLen := rfl
@[simp] theorem markFault_outLen : s.markFault.outLen = s.outLen := rfl
@[simp] theorem markFault_arg : s.markFault.arg = s.arg := rfl
@[simp] theorem markFault_result : s.markFault.result = s.result := rfl
@[simp] theorem markFault_key : s.markFault.key = s.key := rfl
@[simp] theorem markFault_inBuf : s.markFault.inBuf = s.inBuf := rfl
@[simp] theorem markFault_outBuf : s.markFault.outBuf = s.outBuf := rfl
@[simp] theorem markFault_fault : s.markFault.fault = true := rfl
@[simp] theorem markFault_inflight : s.markFault.inflight = s.inflight := rfl
@[simp] theorem markFault_datapath : s.markFault.datapath = s.datapath := rfl
@[simp] theorem markFault_rst : s.markFault.rst = s.rst := rfl
@[simp] theorem markFault_inputs : s.markFault.inputs = s.inputs := rfl
@[simp] theorem markFault_readData : s.markFault.readData = s.readData := rfl
@[simp] theorem markFault_draws : s.markFault.draws = s.draws := rfl
@[simp] theorem markFault_resetDraw : s.markFault.resetDraw = s.resetDraw := rfl
@[simp] theorem markFault_nIn : s.markFault.nIn = s.nIn := rfl

@[simp] theorem answer_status (d : ReadData) : (s.answer d).status = s.status := rfl
@[simp] theorem answer_keyLen (d : ReadData) : (s.answer d).keyLen = s.keyLen := rfl
@[simp] theorem answer_inLen (d : ReadData) : (s.answer d).inLen = s.inLen := rfl
@[simp] theorem answer_outLen (d : ReadData) : (s.answer d).outLen = s.outLen := rfl
@[simp] theorem answer_arg (d : ReadData) : (s.answer d).arg = s.arg := rfl
@[simp] theorem answer_result (d : ReadData) : (s.answer d).result = s.result := rfl
@[simp] theorem answer_key (d : ReadData) : (s.answer d).key = s.key := rfl
@[simp] theorem answer_inBuf (d : ReadData) : (s.answer d).inBuf = s.inBuf := rfl
@[simp] theorem answer_outBuf (d : ReadData) : (s.answer d).outBuf = s.outBuf := rfl
@[simp] theorem answer_fault (d : ReadData) : (s.answer d).fault = s.fault := rfl
@[simp] theorem answer_inflight (d : ReadData) : (s.answer d).inflight = s.inflight := rfl
@[simp] theorem answer_datapath (d : ReadData) : (s.answer d).datapath = s.datapath := rfl
@[simp] theorem answer_rst (d : ReadData) : (s.answer d).rst = s.rst := rfl
@[simp] theorem answer_inputs (d : ReadData) : (s.answer d).inputs = s.inputs := rfl
@[simp] theorem answer_readData (d : ReadData) : (s.answer d).readData = some d := rfl
@[simp] theorem answer_draws (d : ReadData) : (s.answer d).draws = s.draws := rfl
@[simp] theorem answer_resetDraw (d : ReadData) : (s.answer d).resetDraw = s.resetDraw := rfl
@[simp] theorem answer_nIn (d : ReadData) : (s.answer d).nIn = s.nIn := rfl

@[simp] theorem answerDrawn_status (d : ReadData) : (s.answerDrawn d).status = s.status := rfl
@[simp] theorem answerDrawn_keyLen (d : ReadData) : (s.answerDrawn d).keyLen = s.keyLen := rfl
@[simp] theorem answerDrawn_inLen (d : ReadData) : (s.answerDrawn d).inLen = s.inLen := rfl
@[simp] theorem answerDrawn_outLen (d : ReadData) : (s.answerDrawn d).outLen = s.outLen := rfl
@[simp] theorem answerDrawn_arg (d : ReadData) : (s.answerDrawn d).arg = s.arg := rfl
@[simp] theorem answerDrawn_result (d : ReadData) : (s.answerDrawn d).result = s.result := rfl
@[simp] theorem answerDrawn_key (d : ReadData) : (s.answerDrawn d).key = s.key := rfl
@[simp] theorem answerDrawn_inBuf (d : ReadData) : (s.answerDrawn d).inBuf = s.inBuf := rfl
@[simp] theorem answerDrawn_outBuf (d : ReadData) : (s.answerDrawn d).outBuf = s.outBuf := rfl
@[simp] theorem answerDrawn_fault (d : ReadData) : (s.answerDrawn d).fault = s.fault := rfl
@[simp] theorem answerDrawn_inflight (d : ReadData) : (s.answerDrawn d).inflight = s.inflight := rfl
@[simp] theorem answerDrawn_datapath (d : ReadData) : (s.answerDrawn d).datapath = s.datapath := rfl
@[simp] theorem answerDrawn_rst (d : ReadData) : (s.answerDrawn d).rst = s.rst := rfl
@[simp] theorem answerDrawn_inputs (d : ReadData) : (s.answerDrawn d).inputs = s.inputs := rfl
@[simp] theorem answerDrawn_readData (d : ReadData) : (s.answerDrawn d).readData = some d := rfl
@[simp] theorem answerDrawn_draws (d : ReadData) : (s.answerDrawn d).draws = s.draws + 1 := rfl
@[simp] theorem answerDrawn_resetDraw (d : ReadData) : (s.answerDrawn d).resetDraw = s.resetDraw := rfl
@[simp] theorem answerDrawn_nIn (d : ReadData) : (s.answerDrawn d).nIn = s.nIn := rfl

@[simp] theorem issue_status (v : Word) : (s.issue v).status = .issued (opcodeField v) := rfl
@[simp] theorem issue_keyLen (v : Word) : (s.issue v).keyLen = s.keyLen := rfl
@[simp] theorem issue_inLen (v : Word) : (s.issue v).inLen = s.inLen := rfl
@[simp] theorem issue_outLen (v : Word) : (s.issue v).outLen = s.outLen := rfl
@[simp] theorem issue_arg (v : Word) : (s.issue v).arg = s.arg := rfl
@[simp] theorem issue_result (v : Word) : (s.issue v).result = s.result := rfl
@[simp] theorem issue_key (v : Word) : (s.issue v).key = s.key := rfl
@[simp] theorem issue_inBuf (v : Word) : (s.issue v).inBuf = s.inBuf := rfl
@[simp] theorem issue_outBuf (v : Word) : (s.issue v).outBuf = s.outBuf := rfl
@[simp] theorem issue_fault (v : Word) : (s.issue v).fault = s.fault := rfl
@[simp] theorem issue_inflight (v : Word) : (s.issue v).inflight = some (s.snapshot v) := rfl
@[simp] theorem issue_datapath (v : Word) : (s.issue v).datapath = s.datapath := rfl
@[simp] theorem issue_rst (v : Word) : (s.issue v).rst = s.rst := rfl
@[simp] theorem issue_inputs (v : Word) : (s.issue v).inputs = s.inputs := rfl
@[simp] theorem issue_readData (v : Word) : (s.issue v).readData = s.readData := rfl
@[simp] theorem issue_draws (v : Word) : (s.issue v).draws = s.draws := rfl
@[simp] theorem issue_resetDraw (v : Word) : (s.issue v).resetDraw = s.resetDraw := rfl
@[simp] theorem issue_nIn (v : Word) : (s.issue v).nIn = s.nIn := rfl

@[simp] theorem retire_status (S : Snapshot) (e : Option CmdError) : (s.retire S e).status = .completed e S.opcode := rfl
@[simp] theorem retire_keyLen (S : Snapshot) (e : Option CmdError) : (s.retire S e).keyLen = s.keyLen := rfl
@[simp] theorem retire_inLen (S : Snapshot) (e : Option CmdError) : (s.retire S e).inLen = s.inLen := rfl
@[simp] theorem retire_outLen (S : Snapshot) (e : Option CmdError) : (s.retire S e).outLen = s.outLen := rfl
@[simp] theorem retire_arg (S : Snapshot) (e : Option CmdError) : (s.retire S e).arg = s.arg := rfl
@[simp] theorem retire_result (S : Snapshot) (e : Option CmdError) : (s.retire S e).result = s.result := rfl
@[simp] theorem retire_key (S : Snapshot) (e : Option CmdError) : (s.retire S e).key = s.key := rfl
@[simp] theorem retire_inBuf (S : Snapshot) (e : Option CmdError) : (s.retire S e).inBuf = s.inBuf := rfl
@[simp] theorem retire_outBuf (S : Snapshot) (e : Option CmdError) : (s.retire S e).outBuf = s.outBuf := rfl
@[simp] theorem retire_fault (S : Snapshot) (e : Option CmdError) : (s.retire S e).fault = s.fault := rfl
@[simp] theorem retire_inflight (S : Snapshot) (e : Option CmdError) : (s.retire S e).inflight = none := rfl
@[simp] theorem retire_datapath (S : Snapshot) (e : Option CmdError) : (s.retire S e).datapath = .drawn s.draws := rfl
@[simp] theorem retire_rst (S : Snapshot) (e : Option CmdError) : (s.retire S e).rst = s.rst := rfl
@[simp] theorem retire_inputs (S : Snapshot) (e : Option CmdError) : (s.retire S e).inputs = s.inputs := rfl
@[simp] theorem retire_readData (S : Snapshot) (e : Option CmdError) : (s.retire S e).readData = s.readData := rfl
@[simp] theorem retire_draws (S : Snapshot) (e : Option CmdError) : (s.retire S e).draws = s.draws + 1 := rfl
@[simp] theorem retire_resetDraw (S : Snapshot) (e : Option CmdError) : (s.retire S e).resetDraw = s.resetDraw := rfl
@[simp] theorem retire_nIn (S : Snapshot) (e : Option CmdError) : (s.retire S e).nIn = s.nIn := rfl

@[simp] theorem finishWord_status (S : Snapshot) (w : Word) : (s.finishWord S w).status = .completed none S.opcode := rfl
@[simp] theorem finishWord_keyLen (S : Snapshot) (w : Word) : (s.finishWord S w).keyLen = s.keyLen := rfl
@[simp] theorem finishWord_inLen (S : Snapshot) (w : Word) : (s.finishWord S w).inLen = s.inLen := rfl
@[simp] theorem finishWord_outLen (S : Snapshot) (w : Word) : (s.finishWord S w).outLen = s.outLen := rfl
@[simp] theorem finishWord_arg (S : Snapshot) (w : Word) : (s.finishWord S w).arg = s.arg := rfl
@[simp] theorem finishWord_result (S : Snapshot) (w : Word) : (s.finishWord S w).result = w := rfl
@[simp] theorem finishWord_key (S : Snapshot) (w : Word) : (s.finishWord S w).key = s.key := rfl
@[simp] theorem finishWord_inBuf (S : Snapshot) (w : Word) : (s.finishWord S w).inBuf = s.inBuf := rfl
@[simp] theorem finishWord_outBuf (S : Snapshot) (w : Word) : (s.finishWord S w).outBuf = s.outBuf := rfl
@[simp] theorem finishWord_fault (S : Snapshot) (w : Word) : (s.finishWord S w).fault = s.fault := rfl
@[simp] theorem finishWord_inflight (S : Snapshot) (w : Word) : (s.finishWord S w).inflight = none := rfl
@[simp] theorem finishWord_datapath (S : Snapshot) (w : Word) : (s.finishWord S w).datapath = .drawn s.draws := rfl
@[simp] theorem finishWord_rst (S : Snapshot) (w : Word) : (s.finishWord S w).rst = s.rst := rfl
@[simp] theorem finishWord_inputs (S : Snapshot) (w : Word) : (s.finishWord S w).inputs = s.inputs := rfl
@[simp] theorem finishWord_readData (S : Snapshot) (w : Word) : (s.finishWord S w).readData = s.readData := rfl
@[simp] theorem finishWord_draws (S : Snapshot) (w : Word) : (s.finishWord S w).draws = s.draws + 1 := rfl
@[simp] theorem finishWord_resetDraw (S : Snapshot) (w : Word) : (s.finishWord S w).resetDraw = s.resetDraw := rfl
@[simp] theorem finishWord_nIn (S : Snapshot) (w : Word) : (s.finishWord S w).nIn = s.nIn := rfl

@[simp] theorem finishBuffer_status (S : Snapshot) (b : List Byte) : (s.finishBuffer S b).status = .completed none S.opcode := rfl
@[simp] theorem finishBuffer_keyLen (S : Snapshot) (b : List Byte) : (s.finishBuffer S b).keyLen = s.keyLen := rfl
@[simp] theorem finishBuffer_inLen (S : Snapshot) (b : List Byte) : (s.finishBuffer S b).inLen = s.inLen := rfl
@[simp] theorem finishBuffer_outLen (S : Snapshot) (b : List Byte) : (s.finishBuffer S b).outLen = BitVec.ofNat 32 b.length := rfl
@[simp] theorem finishBuffer_arg (S : Snapshot) (b : List Byte) : (s.finishBuffer S b).arg = s.arg := rfl
@[simp] theorem finishBuffer_result (S : Snapshot) (b : List Byte) : (s.finishBuffer S b).result = s.result := rfl
@[simp] theorem finishBuffer_key (S : Snapshot) (b : List Byte) : (s.finishBuffer S b).key = s.key := rfl
@[simp] theorem finishBuffer_inBuf (S : Snapshot) (b : List Byte) : (s.finishBuffer S b).inBuf = s.inBuf := rfl
@[simp] theorem finishBuffer_outBuf (S : Snapshot) (b : List Byte) : (s.finishBuffer S b).outBuf = .ofBytes b := rfl
@[simp] theorem finishBuffer_fault (S : Snapshot) (b : List Byte) : (s.finishBuffer S b).fault = s.fault := rfl
@[simp] theorem finishBuffer_inflight (S : Snapshot) (b : List Byte) : (s.finishBuffer S b).inflight = none := rfl
@[simp] theorem finishBuffer_datapath (S : Snapshot) (b : List Byte) : (s.finishBuffer S b).datapath = .drawn s.draws := rfl
@[simp] theorem finishBuffer_rst (S : Snapshot) (b : List Byte) : (s.finishBuffer S b).rst = s.rst := rfl
@[simp] theorem finishBuffer_inputs (S : Snapshot) (b : List Byte) : (s.finishBuffer S b).inputs = s.inputs := rfl
@[simp] theorem finishBuffer_readData (S : Snapshot) (b : List Byte) : (s.finishBuffer S b).readData = s.readData := rfl
@[simp] theorem finishBuffer_draws (S : Snapshot) (b : List Byte) : (s.finishBuffer S b).draws = s.draws + 1 := rfl
@[simp] theorem finishBuffer_resetDraw (S : Snapshot) (b : List Byte) : (s.finishBuffer S b).resetDraw = s.resetDraw := rfl
@[simp] theorem finishBuffer_nIn (S : Snapshot) (b : List Byte) : (s.finishBuffer S b).nIn = s.nIn := rfl

@[simp] theorem raiseError_status (S : Snapshot) (e : CmdError) : (s.raiseError S e).status = .completed (some e) S.opcode := rfl
@[simp] theorem raiseError_keyLen (S : Snapshot) (e : CmdError) : (s.raiseError S e).keyLen = s.keyLen := rfl
@[simp] theorem raiseError_inLen (S : Snapshot) (e : CmdError) : (s.raiseError S e).inLen = s.inLen := rfl
@[simp] theorem raiseError_outLen (S : Snapshot) (e : CmdError) : (s.raiseError S e).outLen = 0#32 := rfl
@[simp] theorem raiseError_arg (S : Snapshot) (e : CmdError) : (s.raiseError S e).arg = s.arg := rfl
@[simp] theorem raiseError_result (S : Snapshot) (e : CmdError) : (s.raiseError S e).result = s.result := rfl
@[simp] theorem raiseError_key (S : Snapshot) (e : CmdError) : (s.raiseError S e).key = s.key := rfl
@[simp] theorem raiseError_inBuf (S : Snapshot) (e : CmdError) : (s.raiseError S e).inBuf = s.inBuf := rfl
@[simp] theorem raiseError_outBuf (S : Snapshot) (e : CmdError) : (s.raiseError S e).outBuf = [] := rfl
@[simp] theorem raiseError_fault (S : Snapshot) (e : CmdError) : (s.raiseError S e).fault = s.fault := rfl
@[simp] theorem raiseError_inflight (S : Snapshot) (e : CmdError) : (s.raiseError S e).inflight = none := rfl
@[simp] theorem raiseError_datapath (S : Snapshot) (e : CmdError) : (s.raiseError S e).datapath = .drawn s.draws := rfl
@[simp] theorem raiseError_rst (S : Snapshot) (e : CmdError) : (s.raiseError S e).rst = s.rst := rfl
@[simp] theorem raiseError_inputs (S : Snapshot) (e : CmdError) : (s.raiseError S e).inputs = s.inputs := rfl
@[simp] theorem raiseError_readData (S : Snapshot) (e : CmdError) : (s.raiseError S e).readData = s.readData := rfl
@[simp] theorem raiseError_draws (S : Snapshot) (e : CmdError) : (s.raiseError S e).draws = s.draws + 1 := rfl
@[simp] theorem raiseError_resetDraw (S : Snapshot) (e : CmdError) : (s.raiseError S e).resetDraw = s.resetDraw := rfl
@[simp] theorem raiseError_nIn (S : Snapshot) (e : CmdError) : (s.raiseError S e).nIn = s.nIn := rfl

@[simp] theorem finishIllegal_status (S : Snapshot) : (s.finishIllegal S).status = .completed (some .illegalCommand) S.opcode := rfl
@[simp] theorem finishIllegal_keyLen (S : Snapshot) : (s.finishIllegal S).keyLen = s.keyLen := rfl
@[simp] theorem finishIllegal_inLen (S : Snapshot) : (s.finishIllegal S).inLen = s.inLen := rfl
@[simp] theorem finishIllegal_outLen (S : Snapshot) : (s.finishIllegal S).outLen = s.outLen := rfl
@[simp] theorem finishIllegal_arg (S : Snapshot) : (s.finishIllegal S).arg = s.arg := rfl
@[simp] theorem finishIllegal_result (S : Snapshot) : (s.finishIllegal S).result = s.result := rfl
@[simp] theorem finishIllegal_key (S : Snapshot) : (s.finishIllegal S).key = s.key := rfl
@[simp] theorem finishIllegal_inBuf (S : Snapshot) : (s.finishIllegal S).inBuf = s.inBuf := rfl
@[simp] theorem finishIllegal_outBuf (S : Snapshot) : (s.finishIllegal S).outBuf = s.outBuf := rfl
@[simp] theorem finishIllegal_fault (S : Snapshot) : (s.finishIllegal S).fault = s.fault := rfl
@[simp] theorem finishIllegal_inflight (S : Snapshot) : (s.finishIllegal S).inflight = none := rfl
@[simp] theorem finishIllegal_datapath (S : Snapshot) : (s.finishIllegal S).datapath = .drawn s.draws := rfl
@[simp] theorem finishIllegal_rst (S : Snapshot) : (s.finishIllegal S).rst = s.rst := rfl
@[simp] theorem finishIllegal_inputs (S : Snapshot) : (s.finishIllegal S).inputs = s.inputs := rfl
@[simp] theorem finishIllegal_readData (S : Snapshot) : (s.finishIllegal S).readData = s.readData := rfl
@[simp] theorem finishIllegal_draws (S : Snapshot) : (s.finishIllegal S).draws = s.draws + 1 := rfl
@[simp] theorem finishIllegal_resetDraw (S : Snapshot) : (s.finishIllegal S).resetDraw = s.resetDraw := rfl
@[simp] theorem finishIllegal_nIn (S : Snapshot) : (s.finishIllegal S).nIn = s.nIn := rfl

@[simp] theorem resetCore_status : s.resetCore.status = ⟨false, false, false, 0#4, 0x00#8⟩ := rfl
@[simp] theorem resetCore_keyLen : s.resetCore.keyLen = 0#8 := rfl
@[simp] theorem resetCore_inLen : s.resetCore.inLen = 0#32 := rfl
@[simp] theorem resetCore_outLen : s.resetCore.outLen = 0#32 := rfl
@[simp] theorem resetCore_arg : s.resetCore.arg = 0#32 := rfl
@[simp] theorem resetCore_result : s.resetCore.result = 0#32 := rfl
@[simp] theorem resetCore_key : s.resetCore.key = ⟨.unwritten s.draws 0, .unwritten s.draws 1, .unwritten s.draws 2, .unwritten s.draws 3⟩ := rfl
@[simp] theorem resetCore_inBuf : s.resetCore.inBuf = [] := rfl
@[simp] theorem resetCore_outBuf : s.resetCore.outBuf = [] := rfl
@[simp] theorem resetCore_fault : s.resetCore.fault = false := rfl
@[simp] theorem resetCore_inflight : s.resetCore.inflight = none := rfl
@[simp] theorem resetCore_datapath : s.resetCore.datapath = .drawn s.draws := rfl
@[simp] theorem resetCore_rst : s.resetCore.rst = false := rfl
@[simp] theorem resetCore_inputs : s.resetCore.inputs = s.inputs := rfl
@[simp] theorem resetCore_readData : s.resetCore.readData = none := rfl
@[simp] theorem resetCore_draws : s.resetCore.draws = s.draws + 1 := rfl
@[simp] theorem resetCore_resetDraw : s.resetCore.resetDraw = s.draws := rfl
@[simp] theorem resetCore_nIn : s.resetCore.nIn = s.nIn := rfl

@[simp] theorem writeIn_status (i : Nat) (v : Byte) : (writeIn i v s).status = s.status := rfl
@[simp] theorem writeIn_keyLen (i : Nat) (v : Byte) : (writeIn i v s).keyLen = s.keyLen := rfl
@[simp] theorem writeIn_inLen (i : Nat) (v : Byte) : (writeIn i v s).inLen = s.inLen := rfl
@[simp] theorem writeIn_outLen (i : Nat) (v : Byte) : (writeIn i v s).outLen = s.outLen := rfl
@[simp] theorem writeIn_arg (i : Nat) (v : Byte) : (writeIn i v s).arg = s.arg := rfl
@[simp] theorem writeIn_result (i : Nat) (v : Byte) : (writeIn i v s).result = s.result := rfl
@[simp] theorem writeIn_key (i : Nat) (v : Byte) : (writeIn i v s).key = s.key := rfl
@[simp] theorem writeIn_inBuf (i : Nat) (v : Byte) : (writeIn i v s).inBuf = s.inBuf.write i v := rfl
@[simp] theorem writeIn_outBuf (i : Nat) (v : Byte) : (writeIn i v s).outBuf = s.outBuf := rfl
@[simp] theorem writeIn_fault (i : Nat) (v : Byte) : (writeIn i v s).fault = s.fault := rfl
@[simp] theorem writeIn_inflight (i : Nat) (v : Byte) : (writeIn i v s).inflight = s.inflight := rfl
@[simp] theorem writeIn_datapath (i : Nat) (v : Byte) : (writeIn i v s).datapath = s.datapath := rfl
@[simp] theorem writeIn_rst (i : Nat) (v : Byte) : (writeIn i v s).rst = s.rst := rfl
@[simp] theorem writeIn_inputs (i : Nat) (v : Byte) : (writeIn i v s).inputs = s.inputs := rfl
@[simp] theorem writeIn_readData (i : Nat) (v : Byte) : (writeIn i v s).readData = s.readData := rfl
@[simp] theorem writeIn_draws (i : Nat) (v : Byte) : (writeIn i v s).draws = s.draws := rfl
@[simp] theorem writeIn_resetDraw (i : Nat) (v : Byte) : (writeIn i v s).resetDraw = s.resetDraw := rfl
@[simp] theorem writeIn_nIn (i : Nat) (v : Byte) : (writeIn i v s).nIn = s.nIn := rfl

end Sys2Proof.Machine
end

