-- ==== Sys2Proof/Laws/Ops.lean ====
section
/-! SUPPORT. What each shared operation can do, once: operand checks, completion, exec and the step. -/

namespace Sys2Proof.Machine

@[simp] theorem require_true (e : CmdError) : require true e = .ok () := rfl

@[simp] theorem require_false (e : CmdError) : require false e = .error e := rfl

/-- R76. -/
theorem getKey_eq (S : Snapshot) :
    getKey S = if S.keyLen = 16#8 then .ok (bytes (keyWords S)) else .error .invalidKeyLength := by
  unfold getKey
  by_cases h : S.keyLen = 16#8
  · simp [h, bind, Except.bind, pure, Except.pure]
  · have hb : (S.keyLen == 16#8) = false := by simpa using h
    simp [h, hb, bind, Except.bind]

/-- R77. -/
theorem getInput_eq (nIn : Nat) (S : Snapshot) :
    getInput nIn S
      = if S.inLen.toNat ≤ nIn then .ok (inputBytes S) else .error .inputLengthRange := by
  unfold getInput
  by_cases h : S.inLen.toNat ≤ nIn <;> simp [h, bind, Except.bind, pure, Except.pure]

/-- A listed byte is what the host wrote (R37). -/
theorem inputByteAt_listed (n : Nat) (m : Memory) (i : Nat) (b : Byte) (h : m.read i = some b) : inputByteAt n m i = b := by
  simp [inputByteAt, h]

/-- An unlisted byte is the draw of reset n (R37, 93_implementation_defined.md U6). -/
theorem inputByteAt_unlisted (n : Nat) (m : Memory) (i : Nat) (h : m.read i = none) :
    inputByteAt n m i = Config.resetInByte n i := by
  simp [inputByteAt, h]

/-- A key word the command sees is what KEYj held at issue (R36). -/
@[simp] theorem quadGet_keyWords (S : Snapshot) (j : Fin 4) : quadGet (keyWords S) j = (quadGet S.key j).value := by
  match j with | 0 | 1 | 2 | 3 => rfl

@[simp] theorem inputBytes_length (S : Snapshot) : (inputBytes S).length = S.inLen.toNat := by
  simp [inputBytes]

theorem getElem?_inputBytes (S : Snapshot) (i : Nat) (h : i < S.inLen.toNat) :
    (inputBytes S)[i]? = some (inputByte S i) := by
  simp [inputBytes, h]

/-- What KEY_EXPAND computes (R129), as one case distinction. -/
theorem keyExpandResult_eq (S : Snapshot) :
    keyExpandResult S
      = if S.keyLen = 16#8 then .ok (scheduleBytes (expand (bytes (keyWords S)))) else .error .invalidKeyLength := by
  rw [keyExpandResult, getKey_eq]
  split <;> rfl

/-- What BLOCK_FWD computes (R175), as one case distinction. -/
theorem blockFwdResult_eq (nIn : Nat) (S : Snapshot) :
    blockFwdResult nIn S
      = if S.inLen.toNat ≤ nIn ∧ S.inLen.toNat = 16 then
          if S.keyLen = 16#8 then .ok (processBlock (inputBytes S) (expand (bytes (keyWords S))))
          else .error .invalidKeyLength
        else .error .inputLengthRange := by
  rw [blockFwdResult, getInput_eq, getKey_eq]
  by_cases h : S.inLen.toNat ≤ nIn
  · by_cases h2 : S.inLen.toNat = 16
    · have hl : ((inputBytes S).length == 16) = true := by simp [h2]
      simp only [if_pos h, if_pos (And.intro h h2), bind, Except.bind, hl, require_true]
      by_cases h3 : S.keyLen = 16#8 <;> simp only [h3, if_true, if_false] <;> rfl
    · have hl : ((inputBytes S).length == 16) = false := by simp [h2]
      simp only [if_pos h, if_neg fun hh : _ ∧ _ => h2 hh.2, bind, Except.bind, hl, require_false]
  · simp only [if_neg h, if_neg fun hh : _ ∧ _ => h hh.1, bind, Except.bind]

/-- What BLOCK_REV computes (R176), as one case distinction. -/
theorem blockRevResult_eq (nIn : Nat) (S : Snapshot) :
    blockRevResult nIn S
      = if S.inLen.toNat ≤ nIn ∧ S.inLen.toNat = 16 then
          if S.keyLen = 16#8 then .ok (processBlock (inputBytes S) (expand (bytes (keyWords S))).reverse)
          else .error .invalidKeyLength
        else .error .inputLengthRange := by
  rw [blockRevResult, getInput_eq, getKey_eq]
  by_cases h : S.inLen.toNat ≤ nIn
  · by_cases h2 : S.inLen.toNat = 16
    · have hl : ((inputBytes S).length == 16) = true := by simp [h2]
      simp only [if_pos h, if_pos (And.intro h h2), bind, Except.bind, hl, require_true]
      by_cases h3 : S.keyLen = 16#8 <;> simp only [h3, if_true, if_false] <;> rfl
    · have hl : ((inputBytes S).length == 16) = false := by simp [h2]
      simp only [if_pos h, if_neg fun hh : _ ∧ _ => h2 hh.2, bind, Except.bind, hl, require_false]
  · simp only [if_neg h, if_neg fun hh : _ ∧ _ => h hh.1, bind, Except.bind]

/-- What ECB_ENC computes (R199), as one case distinction. -/
theorem ecbEncResult_eq (nIn : Nat) (S : Snapshot) :
    ecbEncResult nIn S
      = if S.inLen.toNat ≤ nIn then
          if S.keyLen = 16#8 then .ok (encrypt (inputBytes S) (bytes (keyWords S)))
          else .error .invalidKeyLength
        else .error .inputLengthRange := by
  rw [ecbEncResult, getInput_eq, getKey_eq]
  split <;> split <;> rfl

theorem cipherLengthOk_iff (c : List Byte) : cipherLengthOk c = true ↔ c.length ≠ 0 ∧ c.length % 16 = 0 := by
  simp [cipherLengthOk]

/-- The padding check (R195, R196), as one case distinction. -/
theorem stripPad_eq (q : List Byte) :
    stripPad q
      = if 1 ≤ lastByte q ∧ lastByte q ≤ 16 then .ok (q.take (q.length - lastByte q)) else .error .invalidPadding := by
  unfold stripPad
  by_cases h : 1 ≤ lastByte q ∧ lastByte q ≤ 16
  · simp [h, bind, Except.bind, pure, Except.pure]
  · have hb : (decide (1 ≤ lastByte q) && decide (lastByte q ≤ 16)) = false := by
      simpa [Bool.and_eq_false_iff, Decidable.not_and_iff_or_not] using h
    rw [hb, if_neg h]
    simp [bind, Except.bind]

/-- decrypt (R195), as one case distinction. -/
theorem decrypt_eq (c key : List Byte) :
    decrypt c key
      = if cipherLengthOk c = true then stripPad (processBlocks (expand key).reverse c)
        else .error .invalidCiphertextLength := by
  unfold decrypt
  by_cases h : cipherLengthOk c = true
  · simp [h, bind, Except.bind]
  · simp [Bool.not_eq_true _ ▸ h, bind, Except.bind]

/-- What ECB_DEC computes (R200), as one case distinction. -/
theorem ecbDecResult_eq (nIn : Nat) (S : Snapshot) :
    ecbDecResult nIn S
      = if S.inLen.toNat ≤ nIn then
          if S.inLen.toNat ≠ 0 ∧ S.inLen.toNat % 16 = 0 then
            if S.keyLen = 16#8 then
              stripPad (processBlocks (expand (bytes (keyWords S))).reverse (inputBytes S))
            else .error .invalidKeyLength
          else .error .invalidCiphertextLength
        else .error .inputLengthRange := by
  rw [ecbDecResult, getInput_eq, getKey_eq]
  have hc := cipherLengthOk_iff (inputBytes S)
  rw [inputBytes_length] at hc
  by_cases h : S.inLen.toNat ≤ nIn
  · by_cases h2 : S.inLen.toNat ≠ 0 ∧ S.inLen.toNat % 16 = 0
    · have hk := hc.mpr h2
      by_cases h3 : S.keyLen = 16#8 <;>
        simp only [h, h2, h3, hk, ne_eq, not_false_eq_true, and_self, if_true, if_false, bind, Except.bind, require_true,
          decrypt_eq]
    · have hk : cipherLengthOk (inputBytes S) = false := by
        rw [← Bool.not_eq_true]; exact fun hh => h2 (hc.mp hh)
      simp only [h, h2, hk, if_true, if_false, bind, Except.bind, require_false]
  · simp only [h, if_false, bind, Except.bind]

/-- Completion of a word command: exactly when a command is in flight, and its whole effect. -/
theorem completeWord_next (f : Snapshot → Word) (s t : State) :
    completeWord f s = .next t ↔ ∃ S, s.inflight = some S ∧ t = s.finishWord S (f S) := by
  unfold completeWord
  cases s.inflight with
  | none => simp
  | some S => simp [eq_comm]

/-- Completion of a buffer command: exactly when a command is in flight, and its whole effect. -/
theorem completeBuffer_next (f : Snapshot → Except CmdError (List Byte)) (s t : State) :
    completeBuffer f s = .next t ↔
      ∃ S, s.inflight = some S ∧
        ((∃ b, f S = .ok b ∧ t = s.finishBuffer S b) ∨ ∃ e, f S = .error e ∧ t = s.raiseError S e) := by
  unfold completeBuffer
  cases s.inflight with
  | none => simp
  | some S => cases h : f S <;> simp [h, eq_comm]

theorem completeWord_of_inflight (f : Snapshot → Word) (s : State) (S : Snapshot) (h : s.inflight = some S) :
    completeWord f s = .next (s.finishWord S (f S)) := by
  simp [completeWord, h]

theorem completeBuffer_ok (f : Snapshot → Except CmdError (List Byte)) (s : State) (S : Snapshot) (b : List Byte)
    (h : s.inflight = some S) (hf : f S = .ok b) : completeBuffer f s = .next (s.finishBuffer S b) := by
  simp [completeBuffer, h, hf]

theorem completeBuffer_error (f : Snapshot → Except CmdError (List Byte)) (s : State) (S : Snapshot) (e : CmdError)
    (h : s.inflight = some S) (hf : f S = .error e) : completeBuffer f s = .next (s.raiseError S e) := by
  simp [completeBuffer, h, hf]

/-- The function a buffer command computes (R85); nothing for a word command. -/
def bufferResult (i : Instr) (nIn : Nat) (S : Snapshot) : Except CmdError (List Byte) :=
  match i with
  | .keyExpand => keyExpandResult S
  | .blockFwd => blockFwdResult nIn S
  | .blockRev => blockRevResult nIn S
  | .ecbEnc => ecbEncResult nIn S
  | .ecbDec => ecbDecResult nIn S
  | .sbox | .tau | .linLp | .tKey | .linL | .tRound => .ok []

/-- The function a word command computes (R85); 0 for a buffer command. -/
def wordResult (i : Instr) (S : Snapshot) : Word :=
  match i with
  | .sbox => sboxResult S
  | .tau => tau S.arg
  | .linLp => transLp S.arg
  | .tKey => transTp S.arg
  | .linL => transL S.arg
  | .tRound => transT S.arg
  | .keyExpand | .blockFwd | .blockRev | .ecbEnc | .ecbDec => 0#32

/-- exec is completion by the command's class (R75). -/
theorem exec_eq (i : Instr) (s : State) :
    exec i s = if isWordCommand i = true then completeWord (wordResult i) s
      else completeBuffer (bufferResult i s.nIn) s := by
  cases i <;> rfl

/-- A word command's result reads ARG only (R74). -/
theorem wordResult_congr (i : Instr) (S S' : Snapshot) (h : S.arg = S'.arg) : wordResult i S = wordResult i S' := by
  cases i <;> simp [wordResult, sboxResult, h]

/-- Everything exec can do when it answers a next state. -/
theorem exec_cases (i : Instr) (s t : State) (h : exec i s = .next t) :
    ∃ S, s.inflight = some S ∧
      ((isWordCommand i = true ∧ t = s.finishWord S (wordResult i S)) ∨
       (isWordCommand i = false ∧ ∃ b, bufferResult i s.nIn S = .ok b ∧ t = s.finishBuffer S b) ∨
       (isWordCommand i = false ∧ ∃ e, bufferResult i s.nIn S = .error e ∧ t = s.raiseError S e)) := by
  rw [exec_eq] at h
  split at h
  · rename_i hw
    obtain ⟨S, hS, rfl⟩ := (completeWord_next _ _ _).mp h
    exact ⟨S, hS, .inl ⟨hw, rfl⟩⟩
  · rename_i hw
    have hw' : isWordCommand i = false := by simpa using hw
    obtain ⟨S, hS, hb | he⟩ := (completeBuffer_next _ _ _).mp h
    · exact ⟨S, hS, .inr (.inl ⟨hw', hb⟩)⟩
    · exact ⟨S, hS, .inr (.inr ⟨hw', he⟩)⟩

/-- R81: an output never exceeds OUT_BUF, for a legal capacity. -/
theorem bufferResult_length (i : Instr) (nIn : Nat) (S : Snapshot) (b : List Byte)
    (h16 : nIn % 16 = 0) (h112 : 112 ≤ nIn) (h : bufferResult i nIn S = .ok b) : b.length ≤ nIn + 16 := by
  cases i <;> simp only [bufferResult] at h
  case keyExpand =>
    rw [keyExpandResult_eq] at h
    split at h <;> simp at h
    subst h; simp; omega
  case blockFwd =>
    rw [blockFwdResult_eq] at h
    repeat' split at h
    all_goals simp at h
    subst h; simp
  case blockRev =>
    rw [blockRevResult_eq] at h
    repeat' split at h
    all_goals simp at h
    subst h; simp
  case ecbEnc =>
    rw [ecbEncResult_eq] at h
    repeat' split at h
    all_goals simp at h
    subst h
    rw [encrypt, processBlocks_length _ _ (pad_length_mod _), pad_length]
    simp only [inputBytes_length, padLength]; omega
  case ecbDec =>
    rw [ecbDecResult_eq] at h
    split at h
    · split at h
      · split at h
        · rw [stripPad_eq] at h
          split at h <;> simp at h
          subst h
          rename_i hm _ _
          rw [List.length_take, processBlocks_length _ _ (by simpa using hm.2)]
          simp; omega
        · simp at h
      · simp at h
    · simp at h
  all_goals (simp at h; subst h; simp)

/-- Everything a completing core step can do (R79): nothing while no command runs, else exec or the illegal command. -/
theorem coreStep_cases (s : State) :
    (coreStep s = .next s ∧ (s.rst = true ∨ s.status.busy = false ∨ s.inflight = none)) ∨
    ∃ S, s.inflight = some S ∧ s.rst = false ∧ s.status.busy = true ∧
      ((∃ i, decode S.cmd = .ok i ∧ coreStep s = exec i s) ∨
       (∃ e, decode S.cmd = .error e ∧ coreStep s = .next (s.finishIllegal S))) := by
  unfold coreStep
  cases hr : s.rst <;> cases hb : s.status.busy <;> simp
  cases hS : s.inflight with
  | none => simp
  | some S =>
    right
    refine ⟨S, rfl, ?_⟩
    cases hd : decode S.cmd with
    | ok i => exact .inl ⟨i, rfl, by simp [hd]⟩
    | error e => exact .inr ⟨⟨e, rfl⟩, by simp [hd]⟩

/-- Everything a step can do when it answers a next state: the turn that was due, taken in the state without it. -/
theorem step_cases (s t : State) (h : step s = .next t) :
    (s.inputs = [] ∧ s.fault = false ∧ coreStep s = .next t) ∨
    (∃ rest, s.inputs = .coreWork :: rest ∧ s.fault = false ∧ t = { s with inputs := rest }) ∨
    (∃ rest, s.inputs = .coreDone :: rest ∧ s.fault = false ∧ coreStep { s with inputs := rest } = .next t) ∨
    (∃ a rest, s.inputs = .access a :: rest ∧ s.fault = false ∧ t = hostAccess a { s with inputs := rest }) ∨
    (∃ level rest, s.inputs = .resetPin level :: rest ∧ t = ({ s with inputs := rest }).drivePin level) := by
  unfold step at h
  split at h
  · rename_i hi
    split at h
    · simp at h
    · exact .inl ⟨hi, by simp_all, h⟩
  · rename_i turn rest hi
    cases turn <;> simp only [Turn.isResetPin, takeTurn] at h
    case coreWork =>
      cases hf : s.fault <;> simp [hf] at h
      exact .inr (.inl ⟨rest, hi, rfl, h.symm⟩)
    case coreDone =>
      cases hf : s.fault <;> simp [hf] at h
      exact .inr (.inr (.inl ⟨rest, hi, rfl, h⟩))
    case access a =>
      cases hf : s.fault <;> simp [hf] at h
      exact .inr (.inr (.inr (.inl ⟨a, rest, hi, rfl, h.symm⟩)))
    case resetPin level =>
      simp at h
      exact .inr (.inr (.inr (.inr ⟨level, rest, hi, h.symm⟩)))

end Sys2Proof.Machine
end

