-- ==== Sys2Proof/Laws/PerInstr.lean ====
section
/-! SUPPORT. Statements made per instruction: the family EncodingWellFormed of LAWS.json. -/

namespace Sys2Proof.Laws.EncodingWellFormed

/-- The word of a command is well formed (R70, R71) and decodes to that command (R72). -/
def Statement (i : Instr) : Prop := (cmdFields (encode i)).wf = true ∧ decode (encode i) = .ok i

theorem sbox : Statement .sbox := ⟨by decide, by decide⟩
theorem tau : Statement .tau := ⟨by decide, by decide⟩
theorem linLp : Statement .linLp := ⟨by decide, by decide⟩
theorem tKey : Statement .tKey := ⟨by decide, by decide⟩
theorem keyExpand : Statement .keyExpand := ⟨by decide, by decide⟩
theorem linL : Statement .linL := ⟨by decide, by decide⟩
theorem tRound : Statement .tRound := ⟨by decide, by decide⟩
theorem blockFwd : Statement .blockFwd := ⟨by decide, by decide⟩
theorem blockRev : Statement .blockRev := ⟨by decide, by decide⟩
theorem ecbEnc : Statement .ecbEnc := ⟨by decide, by decide⟩
theorem ecbDec : Statement .ecbDec := ⟨by decide, by decide⟩

end Sys2Proof.Laws.EncodingWellFormed
end

