-- ==== Sys2Proof/Laws/Port.lean ====
section
/-! SUPPORT. What the host port can do, once: the addresses of each target, and every outcome of an access. -/

namespace Sys2Proof.Machine

/-- Every listed register offset is a multiple of 4 (R27). -/
theorem regAt_aligned (addr : Addr) (r : Reg) (h : regAt addr = some r) : addr.toNat % 4 = 0 := by
  unfold regAt at h
  split at h <;> simp_all

/-- The listed offsets of R27. -/
theorem regAt_isSome (addr : Addr) :
    (regAt addr).isSome = true ↔
      addr.toNat ∈ [0x000, 0x004, 0x008, 0x00C, 0x010, 0x014, 0x018, 0x020, 0x024, 0x028, 0x02C] := by
  unfold regAt
  split <;> simp_all

/-- A 4-byte access reaches a register, and only one that is listed (R53). -/
theorem target32_ok (n : Nat) (addr : Addr) (t : Target) :
    target32 n addr = .ok t ↔ ∃ r, regAt addr = some r ∧ t = .reg r := by
  unfold target32
  by_cases h : addr.toNat % 4 ≠ 0
  · simp only [if_pos h, reduceCtorEq, false_iff, not_exists, not_and]
    intro r hr
    exact absurd (regAt_aligned addr r hr) h
  · simp only [if_neg h]
    cases hr : regAt addr with
    | some r => simp [eq_comm]
    | none => simp; split <;> simp

/-- A 1-byte access reaches a buffer byte, and only one inside its window (R53). -/
theorem target8_ok (n : Nat) (addr : Addr) (t : Target) :
    target8 n addr = .ok t ↔ bufferByteAt n addr = some t := by
  unfold target8
  cases h : bufferByteAt n addr with
  | some u => simp
  | none => simp; split <;> simp

theorem bufferByteAt_eq (n : Nat) (addr : Addr) (t : Target) (h : bufferByteAt n addr = some t) :
    (∃ i, i < n ∧ t = .inByte i ∧ addr.toNat = 0x10000 + i) ∨
    (∃ i, i < n + 16 ∧ t = .outByte i ∧ addr.toNat = 0x20000 + i) := by
  unfold bufferByteAt inBase outBase at h
  split at h
  · rename_i hw
    left
    refine ⟨addr.toNat - 0x10000, by omega, by simpa using h.symm, by omega⟩
  · split at h
    · rename_i hw
      right
      refine ⟨addr.toNat - 0x20000, by omega, by simpa using h.symm, by omega⟩
    · simp at h

/-- IN_BUF byte i is at 0x10000 + i (R55). -/
theorem bufferByteAt_in (n i : Nat) (hn : n ≤ 65520) (hi : i < n) :
    bufferByteAt n (BitVec.ofNat 18 (0x10000 + i)) = some (.inByte i) := by
  have e : (BitVec.ofNat 18 (0x10000 + i)).toNat = 0x10000 + i := by
    rw [BitVec.toNat_ofNat, Nat.mod_eq_of_lt (by omega)]
  unfold bufferByteAt inBase
  rw [e, if_pos (by omega), Nat.add_sub_cancel_left]

/-- OUT_BUF byte i is at 0x20000 + i (R55). -/
theorem bufferByteAt_out (n i : Nat) (hn : n ≤ 65520) (hi : i < n + 16) :
    bufferByteAt n (BitVec.ofNat 18 (0x20000 + i)) = some (.outByte i) := by
  have e : (BitVec.ofNat 18 (0x20000 + i)).toNat = 0x20000 + i := by
    rw [BitVec.toNat_ofNat, Nat.mod_eq_of_lt (by omega)]
  unfold bufferByteAt inBase outBase
  rw [e, if_neg (by omega), if_pos (by omega), Nat.add_sub_cancel_left]

/-- A legal read answers, and may take a draw; it does nothing else (R54). -/
theorem readTarget_cases (t : Target) (s : State) :
    ∃ d, readTarget t s = s.answer d ∨ readTarget t s = s.answerDrawn d := by
  cases t with
  | reg r => cases r <;> simp only [readTarget, readReg] <;> (try split) <;> exact ⟨_, by first | exact .inl rfl | exact .inr rfl⟩
  | inByte i => exact ⟨_, .inl rfl⟩
  | outByte i => simp only [readTarget, readOut]; split <;> exact ⟨_, by first | exact .inl rfl | exact .inr rfl⟩

/-- The verdict on a write: legal exactly when the target is one the host may write and no command is in flight. -/
theorem writeCheck_ok (busy : Bool) (t : Target) (h : writeCheck busy t = .ok ()) :
    busy = false ∧ ((t = .reg .cmd) ∨ (t = .reg .keyLen) ∨ (t = .reg .inLen) ∨ (t = .reg .arg) ∨
      (∃ j, t = .reg (.key j)) ∨ ∃ i, t = .inByte i) := by
  cases busy <;> rcases t with r | i | i <;> try (cases r)
  all_goals simp [writeCheck] at h ⊢

/-- Only offset 0 is CMD (R27). -/
theorem regAt_cmd (addr : Addr) (h : regAt addr = some .cmd) : addr = 0#18 := by
  apply BitVec.eq_of_toNat_eq
  unfold regAt at h
  split at h <;> simp_all

/-- Only offset 0x020 + 4*j is KEYj (R36). -/
theorem regAt_key (addr : Addr) (j : Fin 4) (h : regAt addr = some (.key j)) : addr = BitVec.ofNat 18 (0x020 + 4 * j.val) := by
  apply BitVec.eq_of_toNat_eq
  unfold regAt at h
  split at h <;> simp at h <;> subst h <;> assumption

/-- A legal write is a write to a legal target that the host may write. -/
theorem judge_write32 (s : State) (addr : Addr) (v : Word) (t : Target) (h : judge s (.write32 addr v) = .ok t) :
    s.rst = false ∧ (∃ r, regAt addr = some r ∧ t = .reg r) ∧ writeCheck s.status.busy t = .ok () := by
  unfold judge at h
  cases hr : s.rst
  · simp only [hr, Bool.false_eq_true, if_false] at h
    cases h1 : target32 s.nIn addr with
    | error e => simp [h1, bind, Except.bind] at h
    | ok u =>
      cases h2 : writeCheck s.status.busy u with
      | error e => simp [h1, h2, bind, Except.bind] at h
      | ok w =>
        simp [h1, h2, bind, Except.bind, pure, Except.pure] at h
        subst h
        exact ⟨rfl, (target32_ok _ _ _).mp h1, h2⟩
  · simp [hr] at h

theorem judge_write8 (s : State) (addr : Addr) (v : Byte) (t : Target) (h : judge s (.write8 addr v) = .ok t) :
    s.rst = false ∧ bufferByteAt s.nIn addr = some t ∧ writeCheck s.status.busy t = .ok () := by
  unfold judge at h
  cases hr : s.rst
  · simp only [hr, Bool.false_eq_true, if_false] at h
    cases h1 : target8 s.nIn addr with
    | error e => simp [h1, bind, Except.bind] at h
    | ok u =>
      cases h2 : writeCheck s.status.busy u with
      | error e => simp [h1, h2, bind, Except.bind] at h
      | ok w =>
        simp [h1, h2, bind, Except.bind, pure, Except.pure] at h
        subst h
        exact ⟨rfl, (target8_ok _ _ _).mp h1, h2⟩
  · simp [hr] at h

/-- Every outcome of a host access: the fault mark, a read, an issue, or one input item stored. -/
theorem hostAccess_cases (a : HostAccess) (s : State) :
    hostAccess a s = s.markFault ∨
    (∃ t, (∃ addr, a = .read32 addr ∨ a = .read8 addr) ∧ hostAccess a s = readTarget t s) ∨
    (∃ v, a = .write32 0#18 v ∧ s.rst = false ∧ s.status.busy = false ∧ hostAccess a s = s.issue v) ∨
    (s.rst = false ∧ s.status.busy = false ∧ (∃ addr v, a = .write32 addr v) ∧
      ((∃ v, hostAccess a s = { s with keyLen := v }) ∨ (∃ v, hostAccess a s = { s with inLen := v }) ∨
       (∃ v, hostAccess a s = { s with arg := v }) ∨
       ∃ (j : Fin 4) (v : Word), a = .write32 (BitVec.ofNat 18 (0x020 + 4 * j.val)) v ∧
         hostAccess a s = { s with key := quadSet s.key j ⟨v, true⟩ })) ∨
    (∃ v i, a = .write8 (BitVec.ofNat 18 (0x10000 + i)) v ∧ i < s.nIn ∧ s.rst = false ∧ s.status.busy = false ∧
      hostAccess a s = writeIn i v s) := by
  unfold hostAccess
  cases h : judge s a with
  | error e => exact .inl rfl
  | ok t =>
    right
    cases a with
    | read32 addr => exact .inl ⟨t, ⟨addr, .inl rfl⟩, rfl⟩
    | read8 addr => exact .inl ⟨t, ⟨addr, .inr rfl⟩, rfl⟩
    | write32 addr v =>
      obtain ⟨hr, ⟨r, hreg, rfl⟩, hw⟩ := judge_write32 s addr v t h
      obtain ⟨hb, ht⟩ := writeCheck_ok _ _ hw
      right
      cases r
      case cmd => exact .inl ⟨v, by rw [regAt_cmd addr hreg], hr, hb, rfl⟩
      case keyLen => exact .inr (.inl ⟨hr, hb, ⟨addr, v, rfl⟩, .inl ⟨_, rfl⟩⟩)
      case inLen => exact .inr (.inl ⟨hr, hb, ⟨addr, v, rfl⟩, .inr (.inl ⟨_, rfl⟩)⟩)
      case arg => exact .inr (.inl ⟨hr, hb, ⟨addr, v, rfl⟩, .inr (.inr (.inl ⟨_, rfl⟩))⟩)
      case key j =>
        exact .inr (.inl ⟨hr, hb, ⟨addr, v, rfl⟩, .inr (.inr (.inr ⟨j, v, by rw [← regAt_key addr j hreg], rfl⟩))⟩)
      all_goals simp at ht
    | write8 addr v =>
      obtain ⟨hr, hbuf, hw⟩ := judge_write8 s addr v t h
      obtain ⟨hb, ht⟩ := writeCheck_ok _ _ hw
      obtain ⟨i, hi, rfl, ha⟩ | ⟨i, hi, rfl, -⟩ := bufferByteAt_eq _ _ _ hbuf
      · exact .inr (.inr (.inr ⟨v, i, by rw [← ha, BitVec.ofNat_toNat, BitVec.setWidth_eq], hi, hr, hb, rfl⟩))
      · simp at ht

end Sys2Proof.Machine
end

