-- ==== Sys2Proof/Tests/Slice0.lean ====
section
/-! SUPPORT. The model's own tests and the witnesses of its statements. Expected values are transcribed from the tables of
spec/95_test_vectors.md (the section is named at each test), never from the model. -/

namespace Sys2Proof.Tests

open Sys2Proof Sys2Proof.Machine

/-! ## Helpers -/

/-- 0123456789ABCDEFFEDCBA9876543210 as four words. -/
def std : Quad Word := ⟨0x01234567#32, 0x89ABCDEF#32, 0xFEDCBA98#32, 0x76543210#32⟩

/-- n bytes 00, 01, 02, … -/
def countUp (n : Nat) : List Byte := (List.range n).map (BitVec.ofNat 8)

/-- The core idle, with the standard key in KEY0..KEY3. -/
def loaded (keyLen : Byte) (inLen arg : Word) (input : List Byte) : State :=
  { State.reset with
    key := ⟨⟨std.w0, true⟩, ⟨std.w1, true⟩, ⟨std.w2, true⟩, ⟨std.w3, true⟩⟩
    keyLen := keyLen
    inLen := inLen
    arg := arg
    inBuf := .ofBytes input }

/-- A key command in flight on an input of its own length. -/
def running (cmd : Word) (keyLen : Byte) (input : List Byte) : State :=
  (loaded keyLen (BitVec.ofNat 32 input.length) 0#32 input).issue cmd

/-- A word command in flight. -/
def runningWord (cmd arg : Word) : State := (loaded 16#8 0#32 arg []).issue cmd

/-- What f sees in the next state; nothing if the machine stops. -/
def see {α : Type} (f : State → α) : Host.Outcome State Fault Refusal → Option α
  | .next s => some (f s)
  | .fault _ | .refused _ => none

/-- STATUS as the host reads it, and OUT_LEN. -/
def statusAndLen (s : State) : Word × Word := (s.status.toWord, s.outLen)

/-- The output as the host reads it, OUT[0..n). -/
def outBytes (n : Nat) (s : State) : List (Option Byte) := (List.range n).map (visibleOut s)

/-! ## Decoding: every command's word, written out bit by bit from R70 and R72 -/

theorem test_decode_sbox : decode 0b00000000000000000000000000000001#32 = .ok .sbox := by decide
theorem test_decode_tau : decode 0b00000000000000000000000000000010#32 = .ok .tau := by decide
theorem test_decode_linLp : decode 0b00000000000000000000000000010001#32 = .ok .linLp := by decide
theorem test_decode_tKey : decode 0b00000000000000000000000000010010#32 = .ok .tKey := by decide
theorem test_decode_keyExpand : decode 0b00000000000000000000000000010011#32 = .ok .keyExpand := by decide
theorem test_decode_linL : decode 0b00000000000000000000000000100001#32 = .ok .linL := by decide
theorem test_decode_tRound : decode 0b00000000000000000000000000100010#32 = .ok .tRound := by decide
theorem test_decode_blockFwd : decode 0b00000000000000000000000000110001#32 = .ok .blockFwd := by decide
theorem test_decode_blockRev : decode 0b00000000000000000000000000110010#32 = .ok .blockRev := by decide
theorem test_decode_ecbEnc : decode 0b00000000000000000000000001000001#32 = .ok .ecbEnc := by decide
theorem test_decode_ecbDec : decode 0b00000000000000000000000001000010#32 = .ok .ecbDec := by decide

/-- Section 2.10: words that name no command. -/
theorem test_decode_rejects :
    decode 0x00000000#32 = .error .unassignedOpcode ∧ decode 0x00000003#32 = .error .unassignedOpcode ∧
    decode 0x00000014#32 = .error .unassignedOpcode ∧ decode 0x000000FF#32 = .error .unassignedOpcode ∧
    decode 0x00000101#32 = .error .reservedBits ∧ decode 0x80000041#32 = .error .reservedBits := by decide

theorem test_decodeTableWord : decodeTableWord 32 0x41 = some .ecbEnc ∧ decodeTableWord 32 0x40 = none := by decide

/-! ## WellFormed: an ill-formed term for each check -/

theorem test_wf_accepts : (CmdFields.mk 0#24 0x1#4 0x3#4).wf = true := by decide
theorem test_wf_refuses_rsv : (CmdFields.mk 1#24 0x0#4 0x1#4).rsvOk = false ∧ (CmdFields.mk 1#24 0x0#4 0x1#4).wf = false := by
  decide
theorem test_wf_refuses_funct_zero : (CmdFields.mk 0#24 0x1#4 0x0#4).wf = false := by decide
theorem test_wf_refuses_funct_above : (CmdFields.mk 0#24 0x0#4 0x3#4).wf = false := by decide
theorem test_wf_refuses_family : (CmdFields.mk 0#24 0x5#4 0x1#4).opcodeAssigned = false := by decide

/-! ## The commands, one step each -/

/-- Section 2.1. -/
theorem test_sbox_low_byte_only : see State.result (exec .sbox (runningWord 0x01#32 0x01234567#32)) = some 0x000000A2#32 := by
  decide
theorem test_sbox_upper_ignored : see State.result (exec .sbox (runningWord 0x01#32 0xFFFFFFFE#32)) = some 0x00000039#32 := by
  decide
theorem test_tau_order : see State.result (exec .tau (runningWord 0x02#32 0x89ABCDEF#32)) = some 0xF7AB1084#32 := by decide

/-- Section 2.2. -/
theorem test_linLp_wraps : see State.result (exec .linLp (runningWord 0x11#32 0x80000000#32)) = some 0x80401000#32 := by decide
theorem test_tKey : see State.result (exec .tKey (runningWord 0x12#32 0x80000000#32)) = some 0x5B7960E7#32 := by decide
theorem test_linL_wraps : see State.result (exec .linL (runningWord 0x21#32 0x80000000#32)) = some 0x80820202#32 := by decide
theorem test_tRound : see State.result (exec .tRound (runningWord 0x22#32 0x80000000#32)) = some 0x9767ABAB#32 := by decide

/-- Section 2.3: IN_LEN is not looked at. -/
theorem test_keyExpand :
    see (fun s => (statusAndLen s, outBytes 8 s))
        (exec .keyExpand ((loaded 16#8 0xFFFFFFFF#32 0#32 []).issue 0x13#32))
      = some ((0x00130002#32, 128#32), [0xF1#8, 0x21#8, 0x86#8, 0xF9#8, 0x41#8, 0x66#8, 0x2B#8, 0x61#8].map some) := by
  decide +kernel
theorem test_keyExpand_bad_key : see statusAndLen (exec .keyExpand (running 0x13#32 15#8 [])) = some (0x00130106#32, 0#32) := by
  decide

/-- Section 2.5. -/
theorem test_blockFwd :
    see (outBytes 16) (exec .blockFwd (running 0x31#32 16#8 (List.replicate 16 0#8)))
      = some ((bytes ⟨0x2677F46B#32, 0x09C122CC#32, 0x97553310#32, 0x5BD4A22A#32⟩).map some) := by decide
theorem test_blockFwd_length_first : see statusAndLen (exec .blockFwd (running 0x31#32 0#8 (countUp 15))) = some (0x00310406#32, 0#32) := by
  decide
theorem test_blockRev :
    see (outBytes 16) (exec .blockRev (running 0x32#32 16#8 (List.replicate 16 0#8)))
      = some ((bytes ⟨0xF7D6B57E#32, 0xD4BA6AE1#32, 0xA630FAC4#32, 0x505C98A0#32⟩).map some) := by decide +kernel
theorem test_blockRev_length : see statusAndLen (exec .blockRev (running 0x32#32 16#8 (countUp 17))) = some (0x00320406#32, 0#32) := by
  decide

/-- Section 2.6: two blocks, the second one padded; byte 32 is not an output byte. -/
theorem test_ecbEnc_two_blocks :
    see (fun s => (s.outLen, outBytes 33 s)) (exec .ecbEnc (running 0x41#32 16#8 (countUp 17)))
      = some (32#32, (bytes ⟨0x06989C61#32, 0x3DA668AD#32, 0x2A8DF782#32, 0xE1A8F96A#32⟩
          ++ bytes ⟨0x72E77B6E#32, 0xEC45D69A#32, 0x56C6DD61#32, 0x2AD546B4#32⟩).map some ++ [none]) := by decide
theorem test_ecbEnc_too_long : see statusAndLen (exec .ecbEnc ((loaded 0#8 113#32 0#32 []).issue 0x41#32)) = some (0x00410406#32, 0#32) := by
  decide

/-- Section 2.9: the lenient check, and a pad byte above 16. -/
theorem test_ecbDec_lenient :
    see (fun s => (statusAndLen s, outBytes 14 s))
        (exec .ecbDec (running 0x42#32 16#8 (bytes ⟨0x3689172B#32, 0x9D9476AB#32, 0x1D626CF2#32, 0xC24584B3#32⟩)))
      = some ((0x00420002#32, 13#32), (countUp 13).map (fun b => some (b + 0x20#8)) ++ [none]) := by decide
theorem test_ecbDec_bad_pad :
    see statusAndLen (exec .ecbDec (running 0x42#32 16#8 (bytes ⟨0x411B5E66#32, 0x481F2552#32, 0x1D28F215#32, 0x42A8CA97#32⟩)))
      = some (0x00420306#32, 0#32) := by decide

/-! ## The port and the step -/

/-- Section 2.10: the illegal word 0x00000101, and what STATUS then reads. -/
theorem test_illegal_word : see (fun s => s.status.toWord) (step (State.reset.issue 0x00000101#32)) = some 0x00010506#32 := by decide

/-- Section 2.3: KEY_LEN ignores bits [31:8]. -/
theorem test_keyLen_upper_ignored :
    (hostAccess (.read32 0x008#18) (hostAccess (.write32 0x008#18 0x00000110#32) State.reset)).readData
      = some (.word 0x00000010#32) := by decide

/-- R36, R52: the standard key's word 1 lands in KEY1, and reads 0. -/
theorem test_key_register :
    (hostAccess (.write32 0x024#18 0x89ABCDEF#32) State.reset).key.w1 = ⟨0x89ABCDEF#32, true⟩ ∧
    (hostAccess (.read32 0x024#18) (hostAccess (.write32 0x024#18 0x89ABCDEF#32) State.reset)).readData = some (.word 0#32) := by
  decide

/-- R53: 0x01C, an unaligned register and a 1-byte register access are protocol faults; the last byte of each window is not,
the byte above it is. N_IN is 112 in the reset state. -/
theorem test_port_edges :
    (hostAccess (.read32 0x01C#18) State.reset).fault = true ∧ (hostAccess (.read32 0x006#18) State.reset).fault = true ∧
    (hostAccess (.read8 0x004#18) State.reset).fault = true ∧ (hostAccess (.read32 0x10000#18) State.reset).fault = true ∧
    (hostAccess (.write8 0x1006F#18 1#8) State.reset).fault = false ∧ (hostAccess (.write8 0x10070#18 1#8) State.reset).fault = true ∧
    (hostAccess (.read8 0x2007F#18) State.reset).fault = false ∧ (hostAccess (.read8 0x20080#18) State.reset).fault = true := by
  decide

/-- U6 (spec/93_implementation_defined.md): an unwritten IN_BUF byte answers the same draw at every read, and no read takes
a new one. -/
theorem test_unwritten_in_byte_is_fixed :
    (hostAccess (.read8 0x10005#18) State.reset).readData = some (.byte (Config.resetInByte 0 5)) ∧
    hostAccess (.read8 0x10005#18) (hostAccess (.read8 0x10005#18) State.reset) = hostAccess (.read8 0x10005#18) State.reset :=
  ⟨rfl, rfl⟩

/-- R79: from reset, the word of TAU placed by withFetchWord runs on ARG = 0. -/
theorem test_fetched_word_runs : see (fun s => (s.status.toWord, s.result)) (step (State.reset.withFetchWord 32 0x02)) = some (0x00020002#32, 0xD6D6D6D6#32) := by
  decide

/-- The reset state lists no byte and its buffers are in canonical form. -/
theorem test_reset_memory : State.reset.inBuf.wf = true ∧ State.reset.outBuf.wf = true ∧ State.reset.inBuf = [] := by decide

/-! ## Witnesses: for every statement with hypotheses, concrete inputs that meet them, at the edges of their ranges -/

theorem rejected {v : Word} {e : DecodeReject} (h : decode v = .error e) : ∀ i, decode v ≠ .ok i := by simp [h]

theorem witness_LegalWordIffFieldsWellFormed : (∃ i, decode 0x42#32 = .ok i) ∧ (∀ i, decode 0x100#32 ≠ .ok i) := by
  exact ⟨⟨.ecbDec, by decide⟩, rejected (e := .reservedBits) (by decide)⟩

theorem witness_TauSubstitutesEachByte : ∃ (_ : Word) (k l : Nat), k < 4 ∧ l < 4 ∧ k = 0 ∧ l = 3 := ⟨0#32, 0, 3, by decide⟩

theorem witness_RotationIsCircular : ∃ n m i j : Nat, n < 32 ∧ i < 32 ∧ m < 32 ∧ j < 32 ∧ n = 0 ∧ m = 31 ∧ i = 0 ∧ j = 31 :=
  ⟨0, 31, 0, 31, by decide⟩

theorem witness_PackingRoundTrips : ∃ (b : List Byte) (i : Nat), i < 4 ∧ b.length = 16 ∧ i = 3 := ⟨bytes std, 3, by decide⟩

theorem witness_RoundConstantsFollowByteFormula : ∃ i j : Nat, i < 32 ∧ j < 32 ∧ i = 0 ∧ j = 31 := ⟨0, 31, by decide⟩

theorem witness_RoundKeysFollowRecurrence :
    ∃ (key : List Byte) (_ : Datapath) (i n : Nat), key.length = 16 ∧ i < 32 ∧ n ≤ 32 ∧ i < n ∧ i = 31 ∧ n = 32 :=
  ⟨bytes std, State.reset.datapath, 31, 32, by decide⟩

theorem witness_BlockWordsFollowRecurrence :
    ∃ (block : List Byte) (rks : List Word) (r n : Nat), block.length = 16 ∧ rks.length = 32 ∧ r < 32 ∧ n ≤ 32 ∧ r = 31 ∧ n = 32 :=
  ⟨bytes std, ckTable, 31, 32, by decide⟩

theorem witness_BlockCipherSelfInverse : ∃ (block : List Byte) (_ : List Word), block.length = 16 :=
  ⟨bytes std, ckTable, by decide⟩

theorem witness_JoinUndoesSplit :
    (∃ (q : List Byte) (j : Nat), q.length % 16 = 0 ∧ j < q.length / 16 ∧ j = 1) ∧
    (∃ q : List Byte, q.length % 16 = 0 ∧ q = []) ∧
    (∃ (blocks : List (List Byte)) (j : Nat), (∀ b ∈ blocks, b.length = 16) ∧ j < blocks.length) :=
  ⟨⟨countUp 32, 1, by decide⟩, ⟨[], by decide⟩, ⟨[bytes std], 0, by decide⟩⟩

theorem witness_BlocksAreIndependent :
    (∃ (p : List Byte) (j : Nat), j < (pad p).length / 16 ∧ j = 1) ∧
    (∃ (c : List Byte) (j : Nat), c.length % 16 = 0 ∧ j < c.length / 16 ∧ j = 1) ∧
    (∃ (p : List Byte) (j j' : Nat), j < (pad p).length / 16 ∧ j' < (pad p).length / 16 ∧ j ≠ j' ∧
      blockAt (pad p) j = blockAt (pad p) j') :=
  ⟨⟨countUp 16, 1, by decide⟩, ⟨countUp 32, 1, by decide⟩, ⟨List.replicate 32 7#8, 0, 1, by decide⟩⟩

/-- The final decrypted byte of a one-block ciphertext under the standard key. -/
def padByte (c : Quad Word) : Nat :=
  let q := processBlocks (expand (bytes std)).reverse (bytes c)
  (q.getD (q.length - 1) 0).toNat

/-- Section 2.9: ciphertexts whose final decrypted byte is 00, 01, 10 and 11 (hexadecimal). -/
def cipher00 : Quad Word := ⟨0x446214CF#32, 0xE288BBE4#32, 0x001E403B#32, 0x297E9EF2#32⟩
def cipher01 : Quad Word := ⟨0x9272EC0D#32, 0x1EDD8389#32, 0xAD441844#32, 0x2C0A3708#32⟩
def cipher10 : Quad Word := ⟨0x19676D2A#32, 0x2410A698#32, 0xC4434CD2#32, 0xC7E347C2#32⟩
def cipher11 : Quad Word := ⟨0x411B5E66#32, 0x481F2552#32, 0x1D28F215#32, 0x42A8CA97#32⟩

theorem witness_pad_bytes : padByte cipher00 = 0 ∧ padByte cipher01 = 1 ∧ padByte cipher10 = 16 ∧ padByte cipher11 = 17 := by
  decide

theorem witness_DecryptOutcome :
    ([] : List Byte).length = 0 ∧ (countUp 15).length % 16 ≠ 0 ∧ (bytes cipher00).length ≠ 0 ∧ (bytes cipher00).length % 16 = 0 ∧
    padByte cipher00 = 0 ∧ 16 < padByte cipher11 ∧ 1 ≤ padByte cipher01 ∧ padByte cipher10 ≤ 16 := by decide

theorem witness_PaddingCheckReadsOnlyFinalByte :
    (∃ q q' : List Byte, q ≠ [] ∧ q' ≠ [] ∧ q ≠ q' ∧ q.getLast? = q'.getLast?) ∧
    (∃ (q : List Byte) (n m : Byte), 1 ≤ n.toNat ∧ n.toNat ≤ 16 ∧ 1 ≤ m.toNat ∧ m.toNat ≤ 16 ∧ 16 ≤ q.length + 1 ∧
      n = 1#8 ∧ m = 16#8) ∧
    (∃ n m : Byte, n.toNat = 0 ∧ 16 < m.toNat ∧ m = 17#8) :=
  ⟨⟨[3#8], [1#8, 3#8], by decide⟩, ⟨countUp 15, 1#8, 16#8, by decide⟩, ⟨0#8, 17#8, by decide⟩⟩

theorem witness_EcbCodecLaws :
    (∃ p key : List Byte, key.length = 16 ∧ p.length % 16 = 0 ∧ p = []) ∧
    (∃ c : List Byte, c ≠ [] ∧ c.length % 16 ≠ 0) ∧
    (∃ c d key : List Byte, c ≠ [] ∧ c.length % 16 = 0 ∧ lastByte (processBlocks (expand key).reverse c) = 0 ∧
      d ≠ [] ∧ d.length % 16 = 0 ∧ 16 < lastByte (processBlocks (expand key).reverse d)) :=
  ⟨⟨[], bytes std, by decide⟩, ⟨countUp 17, by decide⟩, ⟨bytes cipher00, bytes cipher11, bytes std, by decide⟩⟩

/-- The six word commands: a command is in flight. -/
theorem witness_word_commands :
    (∃ (s : State) (S : Snapshot), s.inflight = some S ∧ decode S.cmd = .ok .sbox) ∧
    (∃ (s : State) (S : Snapshot), s.inflight = some S ∧ decode S.cmd = .ok .tau) ∧
    (∃ (s : State) (S : Snapshot), s.inflight = some S ∧ decode S.cmd = .ok .linLp) ∧
    (∃ (s : State) (S : Snapshot), s.inflight = some S ∧ decode S.cmd = .ok .tKey) ∧
    (∃ (s : State) (S : Snapshot), s.inflight = some S ∧ decode S.cmd = .ok .linL) ∧
    (∃ (s : State) (S : Snapshot), s.inflight = some S ∧ decode S.cmd = .ok .tRound) :=
  ⟨⟨runningWord 0x01#32 5#32, _, rfl, by decide⟩, ⟨runningWord 0x02#32 5#32, _, rfl, by decide⟩,
   ⟨runningWord 0x11#32 5#32, _, rfl, by decide⟩, ⟨runningWord 0x12#32 5#32, _, rfl, by decide⟩,
   ⟨runningWord 0x21#32 5#32, _, rfl, by decide⟩, ⟨runningWord 0x22#32 5#32, _, rfl, by decide⟩⟩

theorem capacity_edges : capacityOk 112 ∧ capacityOk 65520 := ⟨⟨by decide, by decide, by decide⟩, ⟨by decide, by decide, by decide⟩⟩

theorem witness_KeyExpandCommandResult :
    (∃ (s : State) (S : Snapshot) (i : Nat), s.inflight = some S ∧ S.keyLen = 16#8 ∧ i < 32 ∧ i = 31) ∧
    (∃ (s : State) (S : Snapshot), s.inflight = some S ∧ S.keyLen ≠ 16#8) ∧ (∃ n, capacityOk n) :=
  ⟨⟨running 0x13#32 16#8 [], _, 31, rfl, by decide⟩, ⟨running 0x13#32 15#8 [], _, rfl, by decide⟩, ⟨_, capacity_edges.1⟩⟩

/-- BLOCK_FWD and BLOCK_REV: a run that succeeds, a length one too long and one too short, and a wrong key length. -/
theorem witness_block_commands :
    (∃ (s : State) (S : Snapshot), s.inflight = some S ∧ capacityOk s.nIn ∧ S.inLen = 16#32 ∧ S.keyLen = 16#8) ∧
    (∃ (s : State) (S : Snapshot), s.inflight = some S ∧ S.inLen ≠ 16#32 ∧ S.inLen = 17#32) ∧
    (∃ (s : State) (S : Snapshot), s.inflight = some S ∧ S.inLen ≠ 16#32 ∧ S.inLen = 15#32) ∧
    (∃ (s : State) (S : Snapshot), s.inflight = some S ∧ capacityOk s.nIn ∧ S.inLen = 16#32 ∧ S.keyLen ≠ 16#8) ∧
    (∃ key block : List Byte, key.length = 16 ∧ block.length = 16) :=
  ⟨⟨running 0x31#32 16#8 (countUp 16), _, rfl, capacity_edges.1, by decide⟩, ⟨running 0x31#32 16#8 (countUp 17), _, rfl, by decide⟩,
   ⟨running 0x32#32 16#8 (countUp 15), _, rfl, by decide⟩, ⟨running 0x32#32 17#8 (countUp 16), _, rfl, capacity_edges.1, by decide⟩,
   ⟨bytes std, countUp 16, by decide⟩⟩

theorem witness_EcbEncCommandResult :
    (∃ (s : State) (S : Snapshot), s.inflight = some S ∧ capacityOk s.nIn ∧ S.inLen.toNat ≤ s.nIn ∧ S.keyLen = 16#8 ∧
      S.inLen.toNat = s.nIn) ∧
    (∃ (s : State) (S : Snapshot), s.inflight = some S ∧ capacityOk s.nIn ∧ S.inLen.toNat ≤ s.nIn ∧ S.keyLen = 16#8 ∧
      S.inLen.toNat = 0) ∧
    (∃ (s : State) (S : Snapshot), s.inflight = some S ∧ s.nIn < S.inLen.toNat ∧ S.inLen.toNat = s.nIn + 1) ∧
    (∃ (s : State) (S : Snapshot), s.inflight = some S ∧ S.inLen.toNat ≤ s.nIn ∧ S.keyLen ≠ 16#8) ∧
    (∃ p q : List Byte, p.length = 16 ∧ q.length = 15) :=
  ⟨⟨(loaded 16#8 112#32 0#32 []).issue 0x41#32, _, rfl, capacity_edges.1, by decide⟩,
   ⟨running 0x41#32 16#8 [], _, rfl, capacity_edges.1, by decide⟩,
   ⟨(loaded 16#8 113#32 0#32 []).issue 0x41#32, _, rfl, by decide⟩, ⟨running 0x41#32 15#8 [], _, rfl, by decide⟩,
   ⟨countUp 16, countUp 15, by decide⟩⟩

theorem decrypting (c : Quad Word) : ∃ S, (running 0x42#32 16#8 (bytes c)).inflight = some S ∧
    capacityOk (running 0x42#32 16#8 (bytes c)).nIn ∧ S.inLen = 16#32 ∧ S.keyLen = 16#8 :=
  ⟨_, rfl, capacity_edges.1, congrArg (BitVec.ofNat 32) (bytes_length c), rfl⟩

/-- ECB_DEC: the four pad bytes at the edges, then each error in its order. -/
theorem witness_EcbDecCommandResult :
    (∀ c ∈ [cipher00, cipher01, cipher10, cipher11], ∃ S, (running 0x42#32 16#8 (bytes c)).inflight = some S ∧
      capacityOk (running 0x42#32 16#8 (bytes c)).nIn ∧ S.inLen = 16#32 ∧ S.keyLen = 16#8) ∧
    (inputBytes (running 0x42#32 16#8 (bytes cipher01) |>.snapshot 0x42#32) = bytes cipher01 ∧
      bytes (keyWords (running 0x42#32 16#8 (bytes cipher01) |>.snapshot 0x42#32)) = bytes std ∧
      padByte cipher00 = 0 ∧ padByte cipher01 = 1 ∧ padByte cipher10 = 16 ∧ 16 < padByte cipher11) ∧
    (∃ (s : State) (S : Snapshot), s.inflight = some S ∧ s.nIn < S.inLen.toNat ∧ S.inLen.toNat % 16 = 0) ∧
    (∃ (s : State) (S : Snapshot), s.inflight = some S ∧ S.inLen.toNat ≤ s.nIn ∧ S.inLen.toNat = 0) ∧
    (∃ (s : State) (S : Snapshot), s.inflight = some S ∧ S.inLen.toNat ≤ s.nIn ∧ S.inLen.toNat % 16 ≠ 0) ∧
    (∃ (s : State) (S : Snapshot), s.inflight = some S ∧ S.inLen.toNat ≤ s.nIn ∧ S.inLen.toNat ≠ 0 ∧ S.inLen.toNat % 16 = 0 ∧
      S.keyLen ≠ 16#8) ∧
    (∃ key : List Byte, key.length = 16) :=
  ⟨fun c _ => decrypting c, by decide,
   ⟨(loaded 16#8 128#32 0#32 []).issue 0x42#32, _, rfl, by decide⟩, ⟨running 0x42#32 16#8 [], _, rfl, by decide⟩,
   ⟨running 0x42#32 16#8 (countUp 15), _, rfl, by decide⟩, ⟨running 0x42#32 0#8 (countUp 16), _, rfl, by decide⟩,
   ⟨bytes std, by decide⟩⟩

theorem witness_WordCommandFrame :
    (∃ (i : Instr) (s t : State), isWordCommand i = true ∧ exec i s = .next t) ∧
    (∃ (i : Instr) (s s' t t' : State) (S S' : Snapshot), isWordCommand i = true ∧ s.inflight = some S ∧ s'.inflight = some S' ∧
      S.arg = S'.arg ∧ S.cmd ≠ S'.cmd ∧ exec i s = .next t ∧ exec i s' = .next t') :=
  ⟨⟨.tau, runningWord 0x02#32 5#32, _, rfl, rfl⟩,
   ⟨.tau, runningWord 0x02#32 5#32, runningWord 0x01#32 5#32, _, _, _, _, rfl, rfl, rfl, rfl, by decide, rfl, rfl⟩⟩

theorem witness_BufferCommandFrame :
    (∃ (i : Instr) (s t : State) (j : Nat), isWordCommand i = false ∧ exec i s = .next t ∧ capacityOk s.nIn ∧
      t.outLen.toNat ≤ j) ∧
    (∃ (i : Instr) (s t : State), isWordCommand i = false ∧ exec i s = .next t ∧ t.status.err = true) :=
  ⟨⟨.keyExpand, running 0x13#32 16#8 [], _, 128, rfl, rfl, capacity_edges.1, by decide +kernel⟩,
   ⟨.keyExpand, running 0x13#32 0#8 [], _, rfl, rfl, by decide⟩⟩

theorem witness_CompletionDependsOnSnapshotOnly :
    (∃ (s : State) (S : Snapshot), s.inflight = some S) ∧
    (∃ (i : Instr) (s s' t t' : State), s.inflight.isSome = true ∧ s.inflight = s'.inflight ∧ s.nIn = s'.nIn ∧
      s.arg ≠ s'.arg ∧ exec i s = .next t ∧ exec i s' = .next t') ∧
    (∃ s : State, s.inflight = none) :=
  ⟨⟨runningWord 0x02#32 5#32, _, rfl⟩,
   ⟨.tau, runningWord 0x02#32 5#32, { runningWord 0x02#32 5#32 with arg := 6#32 }, _, _, rfl, rfl, rfl, by decide, rfl, rfl⟩,
   ⟨State.reset, rfl⟩⟩

theorem witness_ErrorPriority :
    (∃ (s t : State) (S : Snapshot), s.inflight = some S ∧ capacityOk s.nIn ∧ exec .keyExpand s = .next t) ∧
    (∃ (s t : State) (S : Snapshot), s.inflight = some S ∧ capacityOk s.nIn ∧ exec .blockRev s = .next t) ∧
    (∃ (s t : State) (S : Snapshot), s.inflight = some S ∧ capacityOk s.nIn ∧ exec .ecbEnc s = .next t) ∧
    (∃ (s t : State) (S : Snapshot), s.inflight = some S ∧ capacityOk s.nIn ∧ exec .ecbDec s = .next t) ∧
    (∃ (s t : State) (S : Snapshot), s.inflight = some S ∧ capacityOk s.nIn ∧ s.rst = false ∧ s.status.busy = true ∧
      (∀ i, decode S.cmd ≠ .ok i) ∧ coreStep s = .next t) :=
  ⟨⟨running 0x13#32 15#8 [], _, _, rfl, capacity_edges.1, rfl⟩, ⟨running 0x32#32 15#8 (countUp 17), _, _, rfl, capacity_edges.1, rfl⟩,
   ⟨running 0x41#32 15#8 [], _, _, rfl, capacity_edges.1, rfl⟩, ⟨running 0x42#32 15#8 (countUp 17), _, _, rfl, capacity_edges.1, rfl⟩,
   ⟨running 0x43#32 16#8 [], _, _, rfl, capacity_edges.1, rfl, rfl, rejected (e := .unassignedOpcode) (by decide), rfl⟩⟩

theorem witness_ErrorLeavesNoOutput :
    ∃ (i : Instr) (s t : State) (S : Snapshot), s.inflight = some S ∧ exec i s = .next t ∧ t.status.err = true :=
  ⟨.ecbDec, running 0x42#32 16#8 (countUp 15), _, _, rfl, rfl, by decide⟩

theorem witness_IllegalCommandChangesOnlyStatus :
    (∃ v w : Word, v.extractLsb' 8 24 ≠ 0#24 ∧ w.extractLsb' 8 24 ≠ 0#24 ∧ v = 0x100#32 ∧ w = 0x80000041#32) ∧
    ([0x00#32, 0x03#32, 0x10#32, 0x14#32, 0x20#32, 0x23#32, 0x30#32, 0x33#32, 0x40#32, 0x43#32, 0xFF#32].all fun (v : Word) =>
      let o := (v.extractLsb' 0 8).toNat
      o = 0 ∨ (0x03 ≤ o ∧ o ≤ 0x10) ∨ (0x14 ≤ o ∧ o ≤ 0x20) ∨ (0x23 ≤ o ∧ o ≤ 0x30) ∨ (0x33 ≤ o ∧ o ≤ 0x40) ∨ 0x43 ≤ o) = true ∧
    (∃ (s : State) (v : Word), (∀ i, decode v ≠ .ok i) ∧ s.rst = false ∧ s.status.busy = false) ∧
    (∃ (s : State) (S : Snapshot), s.rst = false ∧ s.status.busy = true ∧ s.inflight = some S ∧ ∀ i, decode S.cmd ≠ .ok i) :=
  ⟨⟨0x100#32, 0x80000041#32, by decide⟩, by decide, ⟨State.reset, 0x100#32, rejected (e := .reservedBits) (by decide), rfl, rfl⟩,
   ⟨running 0x43#32 16#8 [], _, rfl, rfl, rfl, rejected (e := .unassignedOpcode) (by decide)⟩⟩

theorem witness_CmdWriteIssuesCommand :
    (∃ s : State, s.rst = false ∧ s.status.busy = false) ∧ (∃ s : State, s.status.busy = true) :=
  ⟨⟨State.reset, rfl, rfl⟩, ⟨runningWord 0x01#32 0#32, rfl⟩⟩

theorem witness_StepRunsDecodedCommand :
    (∀ turns ∈ [[], [Turn.coreDone], [.coreWork, .coreDone]],
      let s := { runningWord 0x01#32 0#32 with inputs := turns }
      s.fault = false ∧ s.rst = false ∧ s.status.busy = true ∧ ∃ S, s.inflight = some S ∧ decode S.cmd = .ok .sbox) ∧
    (∃ (s : State) (a : HostAccess) (rest : List Turn), s.fault = false ∧ s.inputs = .access a :: rest) ∧
    (∃ (w : Nat) (i : Instr), decodeTableWord 32 w = some i) :=
  ⟨fun _ _ => ⟨rfl, rfl, rfl, _, rfl, by decide⟩, ⟨{ State.reset with inputs := [.access (.read32 4#18)] }, _, _, rfl, rfl⟩,
   ⟨0x42, .ecbDec, by decide⟩⟩

theorem witness_CommandSeesLoadedKeyAndInput :
    ∃ (s : State) (p q : List Byte), s.rst = false ∧ s.status.busy = false ∧ s.nIn ≤ 65520 ∧ p.length ≤ s.nIn ∧
      q.length ≤ s.nIn ∧ p = [] ∧ q.length = s.nIn :=
  ⟨State.reset, [], countUp 112, by decide⟩

/-- A command in flight satisfies the invariant, whatever turns are to come. -/
theorem running_inv (turns : List Turn) : { running 0x41#32 16#8 [0x61#8] with inputs := turns }.Inv where
  capacity := capacity_edges.1
  flags := rfl
  busy_iff := rfl
  stable := by intro S h; cases h; exact ⟨rfl, rfl⟩
  unwrittenKeys := by intro j h; match j with | 0 | 1 | 2 | 3 => cases h
  inBuf := ⟨rfl, rfl⟩
  outBuf := ⟨[], rfl, rfl, Nat.zero_le _⟩
  quiet := by intro h; cases h

theorem witness_BusyStateAlwaysCompletes :
    ∃ s s' : State, s.Inv ∧ s.fault = false ∧ s.status.busy = true ∧ s.inputs = [] ∧
      s'.Inv ∧ s'.fault = false ∧ s'.status.busy = true ∧ s'.inputs.length = 2 :=
  ⟨_, _, running_inv [], rfl, rfl, rfl, running_inv [.coreWork, .access (.read32 4#18)], rfl, rfl, rfl⟩

theorem witness_NoStaleDone :
    ∃ (s t : State) (S : Snapshot) (s' t' : State) (S' : Snapshot),
      (s.Inv ∧ s.inflight = some S ∧ (∀ level rest, s.inputs ≠ .resetPin level :: rest) ∧ step s = .next t) ∧
      (s'.Inv ∧ s'.inflight = some S' ∧ (∀ level rest, s'.inputs ≠ .resetPin level :: rest) ∧ step s' = .next t') ∧
      t.status.busy = true ∧ t'.status.busy = false :=
  ⟨{ running 0x41#32 16#8 [0x61#8] with inputs := [.coreWork] }, _, _, { running 0x41#32 16#8 [0x61#8] with inputs := [] }, _, _,
    ⟨running_inv _, rfl, by simp, rfl⟩, ⟨running_inv _, rfl, by simp, rfl⟩, rfl, by decide⟩

theorem witness_ProtocolFaultExactlyWhen :
    State.reset.nIn ≤ 65520 ∧ State.reset.fault = false ∧
    (hostAccess (.read32 0x01C#18) State.reset).fault = true ∧ (hostAccess (.write8 0x20000#18 0#8) State.reset).fault = true ∧
    (hostAccess (.write8 0x1FFFF#18 0#8) State.reset).fault = true ∧ (hostAccess (.read8 0x3FFFF#18) State.reset).fault = true ∧
    (hostAccess (.write32 0x014#18 0#32) (runningWord 0x01#32 0#32)).fault = true ∧
    (hostAccess (.read32 0x014#18) (runningWord 0x01#32 0#32)).fault = false := by decide

theorem witness_FaultMarkStaysUntilReset :
    (∃ s t : State, s.fault = true ∧ step s = .next t ∧ t.fault = false) ∧
    (∃ s : State, s.fault = true ∧ ∀ level rest, s.inputs ≠ .resetPin level :: rest) :=
  ⟨⟨{ State.reset with fault := true, inputs := [.resetPin true] }, _, rfl, rfl, by decide⟩,
   ⟨{ State.reset with fault := true }, rfl, by simp [State.reset]⟩⟩

theorem witness_ReadsHaveNoSideEffects :
    (∃ (s : State) (a : HostAccess), (∃ addr, a = .read32 addr ∨ a = .read8 addr) ∧ (hostAccess a s).draws = s.draws) ∧
    (∃ addr : Addr, addr ≠ 0#18) :=
  ⟨⟨State.reset, .read32 4#18, ⟨_, .inl rfl⟩, by decide⟩, ⟨4#18, by decide⟩⟩

/-- RegisterReadsAnswer and RegisterWritesStore. -/
theorem witness_port_registers : ∃ s : State, s.rst = false ∧ s.status.busy = false := ⟨State.reset, rfl, rfl⟩

theorem witness_OutputReadsAnswer :
    (∃ (s : State) (i : Nat), s.rst = false ∧ s.status.busy = true ∧ s.nIn ≤ 65520 ∧ i < s.nIn + 16 ∧ i = s.nIn + 15) ∧
    (∃ (s : State) (i j : Nat) (b : Byte), s.rst = false ∧ s.status.busy = false ∧ s.nIn ≤ 65520 ∧ i < s.nIn + 16 ∧
      i < s.outLen.toNat ∧ s.outBuf.read i = some b ∧ j < s.nIn + 16 ∧ s.outLen.toNat ≤ j ∧ j = i + 1) :=
  ⟨⟨runningWord 0x01#32 0#32, 127, by decide⟩,
   ⟨{ State.reset with outLen := 1#32, outBuf := .ofBytes [9#8] }, 0, 1, 9#8, by decide⟩⟩

theorem witness_InputBufferReadsBackWrites :
    ∃ (s : State) (i j : Nat), s.rst = false ∧ s.status.busy = false ∧ s.nIn ≤ 65520 ∧ i < s.nIn ∧ j < s.nIn ∧ j ≠ i ∧
      i = 0 ∧ j = s.nIn - 1 :=
  ⟨State.reset, 0, 111, by decide⟩

theorem witness_StatusWrittenOnlyByIssueCompletionReset :
    (∃ (s t : State), step s = .next t ∧ t.status ≠ s.status ∧ s.status.busy = false) ∧
    (∃ (s t : State), step s = .next t ∧ t.status ≠ s.status ∧ s.inputs = []) ∧
    (∃ (s t : State) (rest : List Turn), step s = .next t ∧ t.status ≠ s.status ∧ s.inputs = .resetPin true :: rest) :=
  ⟨⟨{ State.reset with inputs := [.access (.write32 0#18 1#32)] }, _, rfl, by decide, rfl⟩,
   ⟨runningWord 0x01#32 0#32, _, rfl, by decide, rfl⟩,
   ⟨{ runningWord 0x01#32 0#32 with inputs := [.resetPin true] }, _, _, rfl, by decide, rfl⟩⟩

theorem witness_CoreNeverWritesInputs :
    ∃ s t : State, step s = .next t ∧ (∀ a rest, s.inputs ≠ .access a :: rest) ∧ (∀ level rest, s.inputs ≠ .resetPin level :: rest) ∧
      t.status ≠ s.status :=
  ⟨{ runningWord 0x01#32 0#32 with inputs := [.coreDone] }, _, rfl, by simp, by simp, by decide⟩

theorem witness_HostNeverWritesOutputs :
    ∃ (s t : State) (a : HostAccess) (rest : List Turn), s.inputs = .access a :: rest ∧ step s = .next t :=
  ⟨{ State.reset with inputs := [.access (.write8 0x10000#18 5#8)] }, _, _, _, rfl, rfl⟩

theorem reset_inv : State.reset.Inv where
  capacity := capacity_edges.1
  flags := rfl
  busy_iff := rfl
  stable := by intro S h; cases h
  unwrittenKeys := by intro j _; match j with | 0 | 1 | 2 | 3 => rfl
  inBuf := ⟨rfl, rfl⟩
  outBuf := ⟨[], rfl, rfl, Nat.zero_le _⟩
  quiet := by intro _; rfl

theorem witness_UnwrittenOperandsAreDrawn :
    (∃ (s : State) (j : Fin 4), s.Inv ∧ (quadGet s.key j).written = false ∧ j = 3) ∧
    (∃ (S : Snapshot) (i : Nat), i < S.inLen.toNat ∧ S.inBuf.read i = none) ∧
    (∃ (S : Snapshot) (i : Nat) (b : Byte), i < S.inLen.toNat ∧ S.inBuf.read i = some b) ∧
    (∃ (s : State) (i j : Nat), s.rst = false ∧ s.nIn ≤ 65520 ∧ i < s.nIn ∧ s.inBuf.read i = none ∧ i = 0 ∧
      j < s.nIn ∧ s.inBuf.read j = none ∧ j = s.nIn - 1) ∧
    (∃ s t : State, step s = .next t ∧ (∀ level rest, s.inputs ≠ .resetPin level :: rest) ∧ quadGet t.key 3 ≠ quadGet s.key 3) ∧
    (∃ s t : State, step s = .next t ∧ (∀ level rest, s.inputs ≠ .resetPin level :: rest) ∧ t.inBuf.read 111 ≠ s.inBuf.read 111) :=
  ⟨⟨State.reset, 3, reset_inv, rfl, rfl⟩,
   ⟨{ State.reset with inLen := 1#32 }.snapshot 0x41#32, 0, by decide, rfl⟩,
   ⟨(loaded 16#8 1#32 0#32 [9#8]).snapshot 0x41#32, 0, 9#8, by decide, rfl⟩,
   ⟨State.reset, 0, 111, rfl, by decide, by decide, rfl, rfl, by decide, rfl, rfl⟩,
   ⟨{ State.reset with inputs := [.access (.write32 0x02C#18 5#32)] }, _, rfl, by simp,
     fun h => Bool.noConfusion (congrArg KeyWord.written h)⟩,
   ⟨{ State.reset with inputs := [.access (.write8 0x1006F#18 5#8)] }, _, rfl, by simp, by decide⟩⟩

theorem witness_ResetPinAbortsAndClears : (∃ s : State, s.rst = false ∧ s.status.busy = true) ∧ (∃ s : State, s.rst = true) :=
  ⟨⟨runningWord 0x01#32 0#32, rfl, rfl⟩, ⟨State.reset.drivePin true, rfl⟩⟩

theorem witness_EveryStepKeepsInvariant : ∃ s t : State, s.Inv ∧ step s = .next t ∧ t.status ≠ s.status :=
  ⟨_, _, running_inv [], rfl, by decide⟩

/-- Section 2.6: "abc" and its ciphertext. -/
theorem witness_EcbDecDeliversWhatEcbEncTook :
    ∃ (s s' : State) (S S' : Snapshot), s.inflight = some S ∧ s'.inflight = some S' ∧ capacityOk s.nIn ∧ capacityOk s'.nIn ∧
      S.keyLen = 16#8 ∧ S'.keyLen = 16#8 ∧ S.inLen.toNat < s.nIn ∧ s'.nIn = s.nIn ∧
      keyWords S' = keyWords S ∧
      inputBytes S' = encrypt (inputBytes S) (bytes (keyWords S)) :=
  ⟨running 0x41#32 16#8 [0x61#8, 0x62#8, 0x63#8],
   running 0x42#32 16#8 (bytes ⟨0x1055435B#32, 0x9ECE6123#32, 0x44F8E100#32, 0x16C4943B#32⟩), _, _, rfl, rfl, capacity_edges.1,
   capacity_edges.1, rfl, rfl, by decide, rfl, by decide, by decide⟩

end Sys2Proof.Tests
end

section
/-! PROOFS. The statements of spec/00_scope.md: the rotation of R10 and the packing of R11. -/

namespace Sys2Proof.Machine

@[simp] theorem rotl32_zero (x : Word) : rotl32 x 0 = x := by
  apply BitVec.eq_of_getLsbD_eq
  intro i hi
  rw [rotl32_getLsbD x 0 i (by decide) hi, Nat.sub_zero, Nat.add_mod_right, Nat.mod_eq_of_lt hi]

/-- Settles O7: bit by bit, by the law of a rotation's bits. -/
theorem rotationIsCircular : Obligations.RotationIsCircular :=
  ⟨rotl32_getLsbD, rotl32_zero⟩

/-- Word i unpacks to the four bytes it was made of, wherever the sequence has them (R11). -/
theorem unbe32_wordAt (b : List Byte) (i : Nat) (h : 4 * i + 4 ≤ b.length) :
    unbe32 (wordAt b i) = (b.drop (4 * i)).take 4 := by
  have byteAt (j : Nat) (hj : j < 4) : b.getD (4 * i + j) 0 = b[4 * i + j] := List.getD_eq_getElem b 0 (by omega)
  calc unbe32 (wordAt b i)
      = [b.getD (4 * i + 0) 0, b.getD (4 * i + 1) 0, b.getD (4 * i + 2) 0, b.getD (4 * i + 3) 0] := unbe32_be32 ..
    _ = [b[4 * i], b[4 * i + 1], b[4 * i + 2], b[4 * i + 3]] := by
        rw [byteAt 0 (by decide), byteAt 1 (by decide), byteAt 2 (by decide), byteAt 3 (by decide)]; rfl
    _ = (b.drop (4 * i)).take 4 := by
        rw [List.drop_eq_getElem_cons (by omega), List.drop_eq_getElem_cons (by omega),
          List.drop_eq_getElem_cons (by omega), List.drop_eq_getElem_cons (by omega)]
        rfl

/-- Member i of `words(b)` is word i of b. -/
theorem quadGet_words (b : List Byte) (i : Nat) (hi : i < 4) : quadGet (words b) (Fin.ofNat 4 i) = wordAt b i := by
  match i, hi with
  | 0, _ | 1, _ | 2, _ | 3, _ => rfl

/-- Settles O8: the inverse laws of the packing, and word i by the bytes it was made of. -/
theorem packingRoundTrips : Obligations.PackingRoundTrips := by
  refine ⟨unbe32_be32, words_bytes, bytes_words, fun b i hi hb => ?_⟩
  rw [quadGet_words b i hi]
  exact unbe32_wordAt b i (by omega)

end Sys2Proof.Machine
end

section
/-! PROOFS. The port's registers and buffers one access at a time (spec/10_state.md R28 to R38), and the reset table (R40). -/

namespace Sys2Proof.Machine

/-! ## The rule of each legal access -/

theorem hostAccess_of_judge {s : State} {a : HostAccess} {t : Target} (h : judge s a = .ok t) :
    hostAccess a s = perform a t s := by
  simp only [hostAccess, h]

section Access
variable {s : State} (hr : s.rst = false)
include hr

theorem hostAccess_read32 {addr : Addr} {r : Reg} (h : regAt addr = some r) :
    hostAccess (.read32 addr) s = readReg r s := by
  have ht : target32 s.nIn addr = .ok (.reg r) := (target32_ok ..).mpr ⟨r, h, rfl⟩
  exact hostAccess_of_judge (t := .reg r) (by simp [judge, hr, ht])

theorem hostAccess_read8 {addr : Addr} {t : Target} (h : bufferByteAt s.nIn addr = some t) :
    hostAccess (.read8 addr) s = readTarget t s := by
  have ht : target8 s.nIn addr = .ok t := (target8_ok ..).mpr h
  exact hostAccess_of_judge (t := t) (by simp [judge, hr, ht])

theorem hostAccess_write32 (hb : s.status.busy = false) {addr : Addr} {r : Reg} (h : regAt addr = some r)
    (hw : writeCheck false (.reg r) = .ok ()) (v : Word) : hostAccess (.write32 addr v) s = writeReg r v s := by
  have ht : target32 s.nIn addr = .ok (.reg r) := (target32_ok ..).mpr ⟨r, h, rfl⟩
  exact hostAccess_of_judge (t := .reg r) (by simp [judge, hr, ht, hb, hw, bind, Except.bind, pure, Except.pure])

theorem hostAccess_write8 (hb : s.status.busy = false) {addr : Addr} {i : Nat}
    (h : bufferByteAt s.nIn addr = some (.inByte i)) (v : Byte) : hostAccess (.write8 addr v) s = writeIn i v s := by
  have ht : target8 s.nIn addr = .ok (.inByte i) := (target8_ok ..).mpr h
  exact hostAccess_of_judge (t := .inByte i)
    (by simp [judge, hr, ht, hb, writeCheck, bind, Except.bind, pure, Except.pure])

/-- A read of IN+i (R37, R55). -/
theorem hostAccess_readIn (hn : s.nIn ≤ 65520) {i : Nat} (hi : i < s.nIn) :
    hostAccess (.read8 (BitVec.ofNat 18 (0x10000 + i))) s = readIn i s :=
  hostAccess_read8 hr (bufferByteAt_in s.nIn i hn hi)

/-- A read of OUT+i (R38, R55). -/
theorem hostAccess_readOut (hn : s.nIn ≤ 65520) {i : Nat} (hi : i < s.nIn + 16) :
    hostAccess (.read8 (BitVec.ofNat 18 (0x20000 + i))) s = readOut i s :=
  hostAccess_read8 hr (bufferByteAt_out s.nIn i hn hi)

end Access

/-! ## What of OUT_BUF is visible (R38) -/

theorem visibleOut_busy {s : State} (hb : s.status.busy = true) (i : Nat) : visibleOut s i = none := by
  simp [visibleOut, hb]

theorem visibleOut_above {s : State} {i : Nat} (h : s.outLen.toNat ≤ i) : visibleOut s i = none := by
  simp [visibleOut, Nat.not_lt.mpr h]

theorem visibleOut_below {s : State} {i : Nat} (hb : s.status.busy = false) (h : i < s.outLen.toNat) :
    visibleOut s i = s.outBuf.read i := by
  simp [visibleOut, hb, h]

theorem readOut_none {s : State} {i : Nat} (h : visibleOut s i = none) :
    readOut i s = s.answerDrawn (.byte (Config.freeOutByte s.draws)) := by
  simp [readOut, h]

theorem readOut_some {s : State} {i : Nat} {b : Byte} (h : visibleOut s i = some b) :
    readOut i s = s.answer (.byte b) := by
  simp [readOut, h]

/-! ## The statements -/

/-- Settles O47: each address reaches its register, and the register's read answers. -/
theorem registerReadsAnswer : Obligations.RegisterReadsAnswer := by
  intro s hr
  have answered {addr : Addr} {r : Reg} (h : regAt addr = some r) :
      (hostAccess (.read32 addr) s).readData = (readReg r s).readData := by
    rw [hostAccess_read32 hr h]
  have zeroExtended : s.keyLen.setWidth 32 = 0#24 ++ s.keyLen := BitVec.setWidth_eq_append (by decide)
  exact ⟨answered (r := .cmd) rfl, answered (r := .status) rfl,
    (answered (r := .keyLen) rfl).trans (congrArg (fun w => some (ReadData.word w)) zeroExtended),
    answered (r := .inLen) rfl, answered (r := .arg) rfl, answered (r := .key 0) rfl, answered (r := .key 1) rfl,
    answered (r := .key 2) rfl, answered (r := .key 3) rfl⟩

/-- Settles O48: each address reaches its register, which the host may write, and the register's write stores. -/
theorem registerWritesStore : Obligations.RegisterWritesStore := by
  intro s v hr hb
  exact ⟨hostAccess_write32 hr hb (r := .keyLen) rfl rfl v, hostAccess_write32 hr hb (r := .inLen) rfl rfl v,
    hostAccess_write32 hr hb (r := .arg) rfl rfl v, hostAccess_write32 hr hb (r := .key 0) rfl rfl v,
    hostAccess_write32 hr hb (r := .key 1) rfl rfl v, hostAccess_write32 hr hb (r := .key 2) rfl rfl v,
    hostAccess_write32 hr hb (r := .key 3) rfl rfl v⟩

/-- Settles O49: the read of each output by BUSY, and of OUT[i] by what is visible of it. -/
theorem outputReadsAnswer : Obligations.OutputReadsAnswer := by
  refine ⟨fun s hr hb hn => ⟨?_, ?_, fun i hi => ?_⟩,
    fun s hr hb hn => ⟨?_, ?_, fun i hi => ⟨fun hl => ?_, fun b hl hread => ?_⟩⟩⟩
  · rw [hostAccess_read32 hr (r := .result) rfl, readReg, if_pos hb]
  · rw [hostAccess_read32 hr (r := .outLen) rfl, readReg, if_pos hb]
  · rw [hostAccess_readOut hr hn hi, readOut_none (visibleOut_busy hb i)]
  · rw [hostAccess_read32 hr (r := .result) rfl, readReg, hb, if_neg Bool.false_ne_true]
  · rw [hostAccess_read32 hr (r := .outLen) rfl, readReg, hb, if_neg Bool.false_ne_true]
  · rw [hostAccess_readOut hr hn hi, readOut_none (visibleOut_above hl)]
  · rw [hostAccess_readOut hr hn hi, readOut_some ((visibleOut_below hb hl).trans hread)]

/-- Settles O50: the write is the buffer's write, so the laws of reading after writing give every byte. -/
theorem inputBufferReadsBackWrites : Obligations.InputBufferReadsBackWrites := by
  intro s i v hr hb hn hi
  have answered (u : State) (hr : u.rst = false) (hu : u.nIn = s.nIn) {j : Nat} (hj : j < s.nIn) :
      (hostAccess (.read8 (BitVec.ofNat 18 (0x10000 + j))) u).readData
        = some (.byte (inputByteAt u.resetDraw u.inBuf j)) := by
    rw [hostAccess_readIn hr (hu ▸ hn) (hu ▸ hj)]; rfl
  rw [hostAccess_write8 hr hb (bufferByteAt_in s.nIn i hn hi) v]
  refine ⟨rfl, ?_, fun j hj hne => ?_⟩
  · rw [answered (writeIn i v s) hr rfl hi, writeIn_inBuf, inputByteAt_listed _ _ _ v (Memory.read_write_same ..)]
  · rw [answered (writeIn i v s) hr rfl hj, answered s hr rfl hj, writeIn_inBuf, writeIn_resetDraw, inputByteAt,
      Memory.read_write_other _ _ _ _ hne, inputByteAt]

/-- Settles O55: the fields of State.reset; CMD by its read, OUT_BUF because OUT_LEN is 0. -/
theorem resetTable : Obligations.ResetTable :=
  ⟨rfl, rfl, rfl, rfl, rfl, rfl, rfl, congrArg State.readData (hostAccess_read32 (r := .cmd) rfl rfl), rfl, rfl, rfl, rfl,
    Memory.read_nil, fun i => visibleOut_above (Nat.zero_le i), rfl, rfl⟩

end Sys2Proof.Machine
end

section
/-! PROOFS. Who writes what (spec/10_state.md R29, R32 to R38): what a core step, a host access and the reset input can
leave behind, and what the port shows of the key. -/

namespace Sys2Proof.Machine

/-! ## What each agent can do -/

/-- Everything a completing core step can leave behind (R79): nothing, or one of the four completions. -/
theorem coreStep_next_cases {s t : State} (h : coreStep s = .next t) :
    t = s ∨ ∃ S, s.inflight = some S ∧ s.status.busy = true ∧
      ((∃ w, t = s.finishWord S w) ∨
       (∃ i b, bufferResult i s.nIn S = .ok b ∧ t = s.finishBuffer S b) ∨
       (∃ e, t = s.raiseError S e) ∨ t = s.finishIllegal S) := by
  obtain ⟨hs, -⟩ | ⟨S, hS, -, hb, ⟨i, -, hi⟩ | ⟨e, -, he⟩⟩ := coreStep_cases s
  · exact .inl (Host.Outcome.next.inj (h.symm.trans hs))
  · obtain ⟨S', hS', hend⟩ := exec_cases i s t (hi.symm.trans h)
    obtain rfl := Option.some.inj (hS.symm.trans hS')
    refine .inr ⟨S, hS, hb, ?_⟩
    obtain ⟨-, ht⟩ | ⟨-, b, hres, ht⟩ | ⟨-, e, -, ht⟩ := hend
    · exact .inl ⟨_, ht⟩
    · exact .inr (.inl ⟨i, b, hres, ht⟩)
    · exact .inr (.inr (.inl ⟨e, ht⟩))
  · exact .inr ⟨S, hS, hb, .inr (.inr (.inr (Host.Outcome.next.inj (h.symm.trans he))))⟩

/-- Everything a host access can leave behind, by the item it writes: none (a read or a protocol fault), the command,
a plain input register, a key register, a byte of IN_BUF. -/
theorem hostAccess_writes (a : HostAccess) (s : State) :
    (∃ f d n, hostAccess a s = { s with fault := f, readData := d, draws := n }) ∨
    (∃ v, a = .write32 0#18 v ∧ s.rst = false ∧ s.status.busy = false ∧ hostAccess a s = s.issue v) ∨
    (∃ keyLen inLen arg, s.status.busy = false ∧
      hostAccess a s = { s with keyLen := keyLen, inLen := inLen, arg := arg }) ∨
    (∃ (j : Fin 4) (v : Word), a = .write32 (BitVec.ofNat 18 (0x020 + 4 * j.val)) v ∧ s.status.busy = false ∧
      hostAccess a s = { s with key := quadSet s.key j ⟨v, true⟩ }) ∨
    (∃ i v, a = .write8 (BitVec.ofNat 18 (0x10000 + i)) v ∧ i < s.nIn ∧ s.status.busy = false ∧
      hostAccess a s = writeIn i v s) := by
  obtain h | ⟨t, -, h⟩ | ⟨v, ha, hr, hb, h⟩ | ⟨-, hb, -, hreg⟩ | ⟨v, i, ha, hi, -, hb, h⟩ := hostAccess_cases a s
  · exact .inl ⟨_, _, _, h⟩
  · obtain ⟨d, ht | ht⟩ := readTarget_cases t s <;> exact .inl ⟨_, _, _, h.trans ht⟩
  · exact .inr (.inl ⟨v, ha, hr, hb, h⟩)
  · obtain ⟨v, h⟩ | ⟨v, h⟩ | ⟨v, h⟩ | ⟨j, v, ha, h⟩ := hreg
    · exact .inr (.inr (.inl ⟨_, _, _, hb, h⟩))
    · exact .inr (.inr (.inl ⟨_, _, _, hb, h⟩))
    · exact .inr (.inr (.inl ⟨_, _, _, hb, h⟩))
    · exact .inr (.inr (.inr (.inl ⟨j, v, ha, hb, h⟩)))
  · exact .inr (.inr (.inr (.inr ⟨i, v, ha, hi, hb, h⟩)))

/-- Everything a turn of the reset input can leave behind (R250). -/
theorem drivePin_cases (s : State) (level : Bool) :
    s.drivePin level = s ∨
    (level = true ∧ s.drivePin level = { s.resetCore with rst := true }) ∨
    s.drivePin level = { s with rst := false } := by
  cases level <;> cases hr : s.rst <;> simp [State.drivePin, hr]

/-- With a host access due, a step is that access. -/
theorem step_access {s t : State} {a : HostAccess} {rest : List Turn} (hi : s.inputs = .access a :: rest)
    (h : step s = .next t) : t = hostAccess a { s with inputs := rest } := by
  obtain ⟨hi', -⟩ | ⟨_, hi', -⟩ | ⟨_, hi', -⟩ | ⟨_, _, hi', -, ht⟩ | ⟨_, _, hi', -⟩ := step_cases s t h <;>
    cases hi.symm.trans hi'
  exact ht

/-! ## Inputs, outputs and STATUS -/

theorem coreStep_sameInputs {s t : State} (h : coreStep s = .next t) : s.sameInputs t := by
  obtain rfl | ⟨S, -, -, ⟨w, rfl⟩ | ⟨i, b, -, rfl⟩ | ⟨e, rfl⟩ | rfl⟩ := coreStep_next_cases h <;>
    exact ⟨rfl, rfl, rfl, rfl, rfl, fun _ => rfl⟩

/-- Settles O53: a step of neither the host nor the reset input is the core's, and every completion keeps the inputs. -/
theorem coreNeverWritesInputs : Obligations.CoreNeverWritesInputs := by
  intro s t h ha hp
  obtain ⟨-, -, hc⟩ | ⟨rest, -, -, rfl⟩ | ⟨rest, -, -, hc⟩ | ⟨a, rest, hi, -⟩ | ⟨level, rest, hi, -⟩ := step_cases s t h
  · exact coreStep_sameInputs hc
  · exact ⟨rfl, rfl, rfl, rfl, rfl, fun _ => rfl⟩
  · exact coreStep_sameInputs (s := { s with inputs := rest }) hc
  · exact absurd hi (ha a rest)
  · exact absurd hi (hp level rest)

/-- Settles O54: none of the items a host access writes is an output. -/
theorem hostNeverWritesOutputs : Obligations.HostNeverWritesOutputs := by
  intro s t a rest hi h
  rw [step_access hi h]
  obtain ⟨f, d, n, ht⟩ | ⟨v, -, -, -, ht⟩ | ⟨kl, il, ar, -, ht⟩ | ⟨j, v, -, -, ht⟩ | ⟨i, v, -, -, -, ht⟩ :=
    hostAccess_writes a { s with inputs := rest } <;>
  · rw [ht]; exact ⟨rfl, rfl, fun _ => rfl⟩

/-- A host access that changes STATUS is an issue (R78). -/
theorem issue_of_hostAccess_status_ne {s : State} {a : HostAccess} (h : (hostAccess a s).status ≠ s.status) :
    ∃ v, a = .write32 0#18 v ∧ s.status.busy = false ∧ (hostAccess a s).status = .issued (opcodeField v) := by
  obtain ⟨f, d, n, ht⟩ | ⟨v, ha, -, hb, ht⟩ | ⟨kl, il, ar, -, ht⟩ | ⟨j, v, -, -, ht⟩ | ⟨i, v, -, -, -, ht⟩ :=
    hostAccess_writes a s
  case inr.inl => exact ⟨v, ha, hb, congrArg State.status ht⟩
  all_goals exact absurd (congrArg State.status ht) h

/-- A core step that changes STATUS is a completion (R79). -/
theorem completion_of_coreStep_status_ne {s t : State} (h : coreStep s = .next t) (hne : t.status ≠ s.status) :
    s.status.busy = true ∧ t.status.busy = false ∧ t.status.done = true := by
  obtain rfl | ⟨S, -, hb, ⟨w, rfl⟩ | ⟨i, b, -, rfl⟩ | ⟨e, rfl⟩ | rfl⟩ := coreStep_next_cases h
  case inl => exact absurd rfl hne
  all_goals exact ⟨hb, rfl, rfl⟩

/-- Settles O52: turn by turn, what changes STATUS is a completion, an issue or the asserting of reset. -/
theorem statusWrittenOnlyByIssueCompletionReset : Obligations.StatusWrittenOnlyByIssueCompletionReset := by
  intro s t h hne
  obtain ⟨hi, -, hc⟩ | ⟨rest, -, -, rfl⟩ | ⟨rest, hi, -, hc⟩ | ⟨a, rest, hi, -, rfl⟩ | ⟨level, rest, hi, rfl⟩ :=
    step_cases s t h
  · obtain ⟨hb, hend⟩ := completion_of_coreStep_status_ne hc hne
    exact .inr (.inl ⟨hb, .inl hi, hend⟩)
  · exact absurd rfl hne
  · obtain ⟨hb, hend⟩ := completion_of_coreStep_status_ne hc hne
    exact .inr (.inl ⟨hb, .inr ⟨rest, hi⟩, hend⟩)
  · obtain ⟨v, rfl, hb, hst⟩ := issue_of_hostAccess_status_ne hne
    exact .inl ⟨v, rest, hi, hb, hst⟩
  · obtain hd | ⟨rfl, hd⟩ | hd := drivePin_cases { s with inputs := rest } level
    · exact absurd (congrArg State.status hd) hne
    · exact .inr (.inr ⟨rest, hi, congrArg State.status hd⟩)
    · exact absurd (congrArg State.status hd) hne

/-! ## The key is not readable -/

/-- The state with other contents in the two places that hold the key: the key registers and the snapshot, which an
issue fills from them. -/
def State.withKey (s : State) (k : Quad KeyWord) (f : Option Snapshot) : State := { s with key := k, inflight := f }

theorem readTarget_withKey (t : Target) (s : State) (k : Quad KeyWord) (f : Option Snapshot) :
    readTarget t (s.withKey k f) = (readTarget t s).withKey k f := by
  cases t with
  | reg r =>
    have hb : (s.withKey k f).status = s.status := rfl
    cases r
    case outLen | result => simp only [readTarget, readReg, hb]; split <;> rfl
    all_goals rfl
  | inByte i => rfl
  | outByte i =>
    have hv : visibleOut (s.withKey k f) i = visibleOut s i := rfl
    simp only [readTarget, readOut, hv]
    cases visibleOut s i <;> rfl

/-- Only the two places that hold the key can differ after an access, when only they differed before it. -/
theorem hostAccess_withKey (a : HostAccess) (s : State) (k : Quad KeyWord) (f : Option Snapshot) :
    ∃ k' f', hostAccess a (s.withKey k f) = (hostAccess a s).withKey k' f' := by
  have hj : judge (s.withKey k f) a = judge s a := rfl
  rw [hostAccess, hostAccess, hj]
  cases judge s a with
  | error e => exact ⟨k, f, rfl⟩
  | ok t =>
    cases a with
    | read32 addr | read8 addr => exact ⟨k, f, readTarget_withKey t s k f⟩
    | write32 addr v =>
      cases t with
      | reg r => cases r <;> exact ⟨_, _, rfl⟩
      | inByte i | outByte i => exact ⟨k, f, rfl⟩
    | write8 addr v => cases t <;> exact ⟨k, f, rfl⟩

/-- Settles O51: two states that differ in the key only differ in the key only after an access, and after the next. -/
theorem keyNeverReadableOnPort : Obligations.KeyNeverReadableOnPort := by
  intro s k a b
  obtain ⟨k₁, f₁, h₁⟩ := hostAccess_withKey a s k s.inflight
  obtain ⟨k₂, f₂, h₂⟩ := hostAccess_withKey b (hostAccess a s) k₁ f₁
  change (hostAccess a (s.withKey k s.inflight)).readData = _ ∧
    (hostAccess b (hostAccess a (s.withKey k s.inflight))).readData = _
  rw [h₁, h₂]
  exact ⟨rfl, rfl⟩

end Sys2Proof.Machine
end

section
/-! PROOFS. The invariant of the machine (spec/10_state.md R26, R29, R32, R36 to R38): it holds at reset, every agent keeps
it, and what it says of the items the host has not written. -/

namespace Sys2Proof.Machine

theorem Status.completed_legal (e : Option CmdError) (opcode : Byte) : (Status.completed e opcode).legal = true := by
  match e with
  | none | some .invalidKeyLength | some .invalidCiphertextLength | some .invalidPadding | some .inputLengthRange
  | some .illegalCommand => rfl

/-- The invariant's clause on OUT_LEN and OUT_BUF (R32, R38). -/
def OutputOk (nIn : Nat) (outLen : Word) (outBuf : Memory) : Prop :=
  ∃ b, outBuf = Memory.ofBytes b ∧ outLen.toNat = b.length ∧ b.length ≤ nIn + 16

theorem outputOk_nil (nIn : Nat) : OutputOk nIn 0#32 [] := ⟨[], rfl, rfl, Nat.zero_le _⟩

/-- Every buffer command's output fits OUT_BUF, and its length fits OUT_LEN (R81). -/
theorem outputOk_of_bufferResult {nIn : Nat} (hcap : capacityOk nIn) {i : Instr} {S : Snapshot} {b : List Byte}
    (hb : bufferResult i nIn S = .ok b) : OutputOk nIn (BitVec.ofNat 32 b.length) (.ofBytes b) := by
  obtain ⟨h16, h112, hmax⟩ := hcap
  have hlen := bufferResult_length i nIn S b h16 h112 hb
  exact ⟨b, rfl, by rw [BitVec.toNat_ofNat, Nat.mod_eq_of_lt (by omega)], hlen⟩

variable {s : State}

/-- The invariant of a state as a reset leaves it (R40), whatever level the reset input has. -/
theorem inv_of_reset_fields (hcap : capacityOk s.nIn) (hst : s.status = ⟨false, false, false, 0#4, 0#8⟩)
    (hfl : s.inflight = none)
    (hkey : s.key = ⟨.unwritten s.resetDraw 0, .unwritten s.resetDraw 1, .unwritten s.resetDraw 2,
      .unwritten s.resetDraw 3⟩)
    (hin : s.inBuf = []) (hout : s.outBuf = []) (hlen : s.outLen = 0#32) : s.Inv where
  capacity := hcap
  flags := by rw [hst]; rfl
  busy_iff := by rw [hst, hfl]; rfl
  stable := by simp [hfl]
  unwrittenKeys j _ := by rw [hkey]; match j with | 0 | 1 | 2 | 3 => rfl
  inBuf := by rw [hin]; exact ⟨rfl, rfl⟩
  outBuf := by rw [hout, hlen]; exact outputOk_nil s.nIn
  quiet _ := hfl

/-- Settles O58: State.reset is as a reset leaves it, with a legal capacity. -/
theorem invariantHoldsAtReset : Obligations.InvariantHoldsAtReset :=
  inv_of_reset_fields ⟨by decide, by decide, by decide⟩ rfl rfl rfl rfl rfl rfl

theorem inflight_none_of_idle (h : s.Inv) (hb : s.status.busy = false) : s.inflight = none := by
  simpa using h.busy_iff.symm.trans hb

/-- The invariant does not speak of the fault mark, the turns to come, the port's answer or the count of draws. -/
theorem inv_withSurroundings (h : s.Inv) (fault : Bool) (inputs : List Turn) (readData : Option ReadData) (draws : Nat) :
    { s with fault := fault, inputs := inputs, readData := readData, draws := draws }.Inv :=
  ⟨h.capacity, h.flags, h.busy_iff, h.stable, h.unwrittenKeys, h.inBuf, h.outBuf, h.quiet⟩

theorem issue_keeps_inv (h : s.Inv) (hr : s.rst = false) (v : Word) : (s.issue v).Inv where
  capacity := h.capacity
  flags := rfl
  busy_iff := rfl
  stable S hS := by cases hS; exact ⟨rfl, rfl⟩
  unwrittenKeys := h.unwrittenKeys
  inBuf := h.inBuf
  outBuf := h.outBuf
  quiet hr' := absurd (hr.symm.trans hr') Bool.false_ne_true

/-- While no command is in flight the input items may change, if the new ones meet their own clauses. -/
theorem inv_withInputs (h : s.Inv) (hfl : s.inflight = none) (keyLen : Byte) (inLen arg : Word) {key : Quad KeyWord}
    {inBuf : Memory}
    (hkey : ∀ j : Fin 4, (quadGet key j).written = false →
      (quadGet key j).value = Config.resetKeyWord s.resetDraw j.val)
    (hin : inBuf.wf = true ∧ inBuf.below s.nIn = true) :
    { s with keyLen := keyLen, inLen := inLen, arg := arg, key := key, inBuf := inBuf }.Inv where
  capacity := h.capacity
  flags := h.flags
  busy_iff := h.busy_iff
  stable _ hS := absurd (hfl.symm.trans hS) nofun
  unwrittenKeys := hkey
  inBuf := hin
  outBuf := h.outBuf
  quiet _ := hfl

/-- A write of KEYj marks it as written and leaves the other key registers (R36). -/
theorem unwrittenKeys_quadSet (h : s.Inv) (j : Fin 4) (v : Word) (i : Fin 4)
    (hw : (quadGet (quadSet s.key j ⟨v, true⟩) i).written = false) :
    (quadGet (quadSet s.key j ⟨v, true⟩) i).value = Config.resetKeyWord s.resetDraw i.val := by
  by_cases hij : i = j
  · rw [hij, quadGet_quadSet_same] at hw
    exact absurd hw nofun
  · rw [quadGet_quadSet_other _ _ _ _ hij] at hw ⊢
    exact h.unwrittenKeys i hw

/-- Every completion keeps the invariant, if its output does (R79). -/
theorem retire_keeps_inv (h : s.Inv) (S : Snapshot) (e : Option CmdError) (result : Word) {outLen : Word} {outBuf : Memory}
    (hout : OutputOk s.nIn outLen outBuf) :
    { s.retire S e with result := result, outLen := outLen, outBuf := outBuf }.Inv where
  capacity := h.capacity
  flags := Status.completed_legal _ _
  busy_iff := rfl
  stable _ hS := absurd hS nofun
  unwrittenKeys := h.unwrittenKeys
  inBuf := h.inBuf
  outBuf := hout
  quiet _ := rfl

theorem coreStep_keeps_inv {t : State} (h : s.Inv) (hc : coreStep s = .next t) : t.Inv := by
  obtain rfl | ⟨S, -, -, ⟨w, rfl⟩ | ⟨i, b, hb, rfl⟩ | ⟨e, rfl⟩ | rfl⟩ := coreStep_next_cases hc
  · exact h
  · exact retire_keeps_inv h S none w h.outBuf
  · exact retire_keeps_inv h S none s.result (outputOk_of_bufferResult h.capacity hb)
  · exact retire_keeps_inv h S (some e) s.result (outputOk_nil s.nIn)
  · exact retire_keeps_inv h S (some .illegalCommand) s.result h.outBuf

theorem hostAccess_keeps_inv (h : s.Inv) (a : HostAccess) : (hostAccess a s).Inv := by
  obtain ⟨f, d, n, ht⟩ | ⟨v, -, hr, hb, ht⟩ | ⟨kl, il, ar, hb, ht⟩ | ⟨j, v, -, hb, ht⟩ | ⟨i, v, -, hi, hb, ht⟩ :=
    hostAccess_writes a s <;> rw [ht]
  · exact inv_withSurroundings h f s.inputs d n
  · exact issue_keeps_inv h hr v
  · exact inv_withInputs h (inflight_none_of_idle h hb) kl il ar h.unwrittenKeys h.inBuf
  · exact inv_withInputs h (inflight_none_of_idle h hb) s.keyLen s.inLen s.arg (unwrittenKeys_quadSet h j v) h.inBuf
  · obtain ⟨hwf, hbelow⟩ := h.inBuf
    exact inv_withInputs h (inflight_none_of_idle h hb) s.keyLen s.inLen s.arg h.unwrittenKeys
      ⟨Memory.wf_write _ i v hwf, Memory.below_write _ _ i v hi hbelow⟩

theorem drivePin_keeps_inv (h : s.Inv) (level : Bool) : (s.drivePin level).Inv := by
  obtain hd | ⟨-, hd⟩ | hd := drivePin_cases s level <;> rw [hd]
  · exact h
  · exact inv_of_reset_fields h.capacity rfl rfl rfl rfl rfl rfl
  · exact ⟨h.capacity, h.flags, h.busy_iff, h.stable, h.unwrittenKeys, h.inBuf, h.outBuf, nofun⟩

/-- Settles O59: taking the due turn off the list keeps the invariant, and so does each agent's turn. -/
theorem everyStepKeepsInvariant : Obligations.EveryStepKeepsInvariant := by
  intro s t h hs
  have due (rest : List Turn) : { s with inputs := rest }.Inv :=
    inv_withSurroundings h s.fault rest s.readData s.draws
  obtain ⟨-, -, hc⟩ | ⟨rest, -, -, rfl⟩ | ⟨rest, -, -, hc⟩ | ⟨a, rest, -, -, rfl⟩ | ⟨level, rest, -, rfl⟩ :=
    step_cases s t hs
  · exact coreStep_keeps_inv h hc
  · exact due rest
  · exact coreStep_keeps_inv (due rest) hc
  · exact hostAccess_keeps_inv (due rest) a
  · exact drivePin_keeps_inv (due rest) level

/-! ## The items the host has not written -/

/-- A host access keeps the reset draw, and changes a key register or a byte of IN_BUF only by the write of that very
item (R36, R37). -/
theorem hostAccess_operands (a : HostAccess) (s : State) :
    (hostAccess a s).resetDraw = s.resetDraw ∧
    (∀ j : Fin 4, quadGet (hostAccess a s).key j ≠ quadGet s.key j →
      ∃ v, a = .write32 (BitVec.ofNat 18 (0x020 + 4 * j.val)) v) ∧
    (∀ i, (hostAccess a s).inBuf.read i ≠ s.inBuf.read i → ∃ v, a = .write8 (BitVec.ofNat 18 (0x10000 + i)) v) := by
  obtain ⟨f, d, n, ht⟩ | ⟨v, -, -, -, ht⟩ | ⟨kl, il, ar, -, ht⟩ | ⟨j, v, ha, -, ht⟩ | ⟨i, v, ha, -, -, ht⟩ :=
    hostAccess_writes a s <;> rw [ht]
  case inr.inr.inr.inl =>
    refine ⟨rfl, fun i hne => ?_, fun i hne => absurd rfl hne⟩
    by_cases hij : i = j
    · exact ⟨v, hij ▸ ha⟩
    · exact absurd (quadGet_quadSet_other _ _ _ _ hij) hne
  case inr.inr.inr.inr =>
    refine ⟨rfl, fun j hne => absurd rfl hne, fun j hne => ?_⟩
    by_cases hji : j = i
    · exact ⟨v, hji ▸ ha⟩
    · exact absurd (Memory.read_write_other _ _ _ _ hji) hne
  all_goals exact ⟨rfl, fun j hne => absurd rfl hne, fun i hne => absurd rfl hne⟩

/-- Settles O56: what a command and a read see of each item, and that a step of the core changes none and one of the
host only the item written. -/
theorem unwrittenOperandsAreDrawn : Obligations.UnwrittenOperandsAreDrawn := by
  refine ⟨quadGet_keyWords, fun s v j h hw => ?_, fun S i hi hu => ?_, fun S i b hi hl => ?_,
    fun s i hr hn hi hu => ?_, fun s t h hp => ?_⟩
  · rw [quadGet_keyWords]
    exact h.unwrittenKeys j hw
  · rw [getElem?_inputBytes S i hi, inputByte, inputByteAt_unlisted _ _ _ hu]
  · rw [getElem?_inputBytes S i hi, inputByte, inputByteAt_listed _ _ _ _ hl]
  · rw [hostAccess_readIn hr hn hi, readIn, inputByteAt_unlisted _ _ _ hu]
  · by_cases ha : ∃ a rest, s.inputs = .access a :: rest
    · obtain ⟨a, rest, hi⟩ := ha
      obtain ⟨hdraw, hkey, hin⟩ := hostAccess_operands a { s with inputs := rest }
      rw [step_access hi h, hi]
      refine ⟨hdraw, fun j hne => ?_, fun i hne => ?_⟩
      · obtain ⟨v, rfl⟩ := hkey j hne
        exact ⟨v, rest, rfl⟩
      · obtain ⟨v, rfl⟩ := hin i hne
        exact ⟨v, rest, rfl⟩
    · obtain ⟨hkey, -, -, -, hdraw, hin⟩ := coreNeverWritesInputs s t h (fun a rest hi => ha ⟨a, rest, hi⟩) hp
      exact ⟨hdraw, fun j hne => absurd (congrArg (quadGet · j) hkey) hne, fun i hne => absurd (hin i) hne⟩

end Sys2Proof.Machine
end

section
/-! PROOFS. The two engines in hardware form compute the functions (spec/10_state.md R21 to R24): the state of the datapath
after n rounds, by induction on n. -/

namespace Sys2Proof.Machine

/-- The last of n + 1 rounds, apart. -/
theorem rounds_succ (f : Datapath → Datapath) (n : Nat) (d : Datapath) : rounds f (n + 1) d = f (rounds f n d) := by
  induction n generalizing d with
  | zero => rfl
  | succ n ih => exact ih (f d)

theorem nextRound_val (i : Fin 32) : (nextRound i).val = min (i.val + 1) 31 := by
  unfold nextRound
  split
  · simp only; omega
  · omega

/-! ## The key schedule engine -/

/-- The window k[n..n+3] of R124. -/
def keyWindow (key : List Byte) : Nat → Quad Word
  | 0 => initialKeyWindow key
  | n + 1 => shiftIn (keyWindow key n) (nextKeyWord (keyWindow key n) (ckTable.getD n 0#32))

/-- From round key n on, expand is the loop started at window n with the constants that are left. -/
theorem drop_expand (key : List Byte) (n : Nat) (hn : n ≤ 32) :
    (expand key).drop n = expandFrom (keyWindow key n) (ckTable.drop n) := by
  induction n with
  | zero => rfl
  | succ n ih =>
    have hlt : n < ckTable.length := hn
    rw [← List.drop_drop, ih (Nat.le_of_succ_le hn), List.drop_eq_getElem_cons hlt, keyWindow,
      List.getD_eq_getElem _ _ hlt]
    rfl

/-- Round key n is the word that window n derives. -/
theorem getElem?_expand (key : List Byte) (n : Nat) (hn : n < 32) :
    (expand key)[n]? = some (nextKeyWord (keyWindow key n) (ckTable.getD n 0#32)) := by
  have hlt : n < ckTable.length := hn
  rw [← List.head?_drop, drop_expand key n (Nat.le_of_lt hn), List.drop_eq_getElem_cons hlt,
    List.getD_eq_getElem _ _ hlt]
  rfl

theorem keyWindow_succ (key : List Byte) (n : Nat) (hn : n < 32) :
    keyWindow key (n + 1) = shiftIn (keyWindow key n) ((expand key).getD n 0#32) := by
  rw [keyWindow, List.getD_eq_getElem?_getD (l := expand key), getElem?_expand key n hn, Option.getD_some]

/-- The datapath after n rounds: K is window n, the counter stops at 31, RK holds the round keys of the rounds done. -/
theorem keyRounds_state (d : Datapath) (key : List Byte) (n : Nat) (hn : n ≤ 32) :
    let d' := rounds Datapath.keyRoundStep n (d.loadKey key)
    d'.k = keyWindow key n ∧ d'.keyRound.val = min n 31 ∧ ∀ i, i < n → d'.rk.toList[i]? = (expand key)[i]? := by
  induction n with
  | zero => exact ⟨rfl, rfl, fun i hi => absurd hi (Nat.not_lt_zero i)⟩
  | succ n ih =>
    obtain ⟨hk, hc, hrk⟩ := ih (Nat.le_of_succ_le hn)
    rw [rounds_succ]
    generalize rounds Datapath.keyRoundStep n (d.loadKey key) = e at hk hc hrk
    have hround : e.keyRound.val = n := by omega
    refine ⟨?_, ?_, fun i hi => ?_⟩
    · simp only [Datapath.keyRoundStep, hk, ckAt, hround, keyWindow]
    · simp only [Datapath.keyRoundStep, nextRound_val, hround]
    · simp only [Datapath.keyRoundStep, Vector.toList_set, List.getElem?_set, hk, ckAt, hround]
      by_cases hin : n = i
      · subst hin
        rw [getElem?_expand key n hn]
        simpa using hn
      · rw [if_neg hin]
        exact hrk i (by omega)

/-- Settles O13: the state after 32 rounds, and the last window by its last four words. -/
theorem keyEngineLeavesScheduleInRK : Obligations.KeyEngineLeavesScheduleInRK := by
  intro d key
  obtain ⟨hk, hc, hrk⟩ := keyRounds_state d key 32 (Nat.le_refl 32)
  refine ⟨List.ext_getElem? fun i => ?_, hk.trans ?_, hc⟩
  · by_cases hi : i < 32
    · exact hrk i hi
    · rw [List.getElem?_eq_none (by simpa using hi), List.getElem?_eq_none (by simpa using hi)]
  · rw [keyWindow_succ key 31 (by decide), keyWindow_succ key 30 (by decide), keyWindow_succ key 29 (by decide),
      keyWindow_succ key 28 (by decide)]
    rfl

/-! ## The Feistel engine -/

/-- The round keys in the order in which the rounds read them (R23). -/
def readOrder (reversed : Bool) (rk : Vector Word 32) : List Word :=
  if reversed then rk.toList.reverse else rk.toList

@[simp] theorem readOrder_length (reversed : Bool) (rk : Vector Word 32) : (readOrder reversed rk).length = 32 := by
  cases reversed <;> simp [readOrder]

theorem readOrder_getElem (reversed : Bool) (rk : Vector Word 32) (r : Fin 32) :
    (readOrder reversed rk)[r.val]'(by simp) = roundKeyAt rk reversed r := by
  cases reversed <;> simp [readOrder, roundKeyAt]

/-- The datapath after n rounds: X is the block under the first n round keys, RK is untouched, the counter stops at 31. -/
theorem feistelRounds_state (d : Datapath) (block : List Byte) (reversed : Bool) (n : Nat) (hn : n ≤ 32) :
    let d' := rounds (Datapath.feistelStep reversed) n (d.loadBlock block)
    d'.x = ((readOrder reversed d.rk).take n).foldl feistelRound (words block) ∧ d'.rk = d.rk ∧
      d'.feistelRound.val = min n 31 := by
  induction n with
  | zero => exact ⟨rfl, rfl, rfl⟩
  | succ n ih =>
    obtain ⟨hx, hrk, hc⟩ := ih (Nat.le_of_succ_le hn)
    rw [rounds_succ]
    generalize rounds (Datapath.feistelStep reversed) n (d.loadBlock block) = e at hx hrk hc
    have hround : e.feistelRound.val = n := by omega
    have hlt : n < (readOrder reversed d.rk).length := by simpa using hn
    have hkey : roundKeyAt e.rk reversed e.feistelRound = (readOrder reversed d.rk)[n] := by
      rw [hrk, ← readOrder_getElem]
      simp only [hround]
    refine ⟨?_, hrk, ?_⟩
    · rw [List.take_succ_eq_append_getElem hlt, List.foldl_append, ← hx, ← hkey]
      rfl
    · simp only [Datapath.feistelStep, nextRound_val, hround]

/-- Settles O14: the state after 32 rounds, which is the block under all the round keys. -/
theorem feistelEngineComputesProcessBlock : Obligations.FeistelEngineComputesProcessBlock := by
  intro d block reversed
  obtain ⟨hx, hrk, hc⟩ := feistelRounds_state d block reversed 32 (Nat.le_refl 32)
  rw [List.take_of_length_le (by simp)] at hx
  exact ⟨congrArg (fun x => bytes (reverseWindow x)) hx, hrk, hc⟩

end Sys2Proof.Machine
end

section
/-! PROOFS. The host port as memory (spec/20_memory.md): which accesses are legal (R53), what a repeated access adds (R54),
and what a command sees of the writes before it (R57). -/

namespace Sys2Proof.Machine

/-! ## Which accesses are legal (R53) -/

theorem perform_fault (a : HostAccess) (t : Target) (s : State) : (perform a t s).fault = s.fault := by
  cases a with
  | read32 addr | read8 addr =>
    change (readTarget t s).fault = s.fault
    obtain ⟨d, h | h⟩ := readTarget_cases t s <;> rw [h] <;> rfl
  | write32 addr v =>
    cases t with
    | reg r => cases r <;> rfl
    | inByte i | outByte i => rfl
  | write8 addr v => cases t <;> rfl

/-- An access sets the fault mark exactly when the port finds no legal target for it (R230). -/
theorem hostAccess_fault_iff {s : State} (hf : s.fault = false) (a : HostAccess) :
    (hostAccess a s).fault = true ↔ ¬ ∃ t, judge s a = .ok t := by
  cases h : judge s a with
  | error e => simp [hostAccess, h]
  | ok t => simp [hostAccess, h, perform_fault, hf]

/-- Every effect of an access but the fault mark keeps the mark as it was, so a fault does nothing else (R230). -/
theorem hostAccess_of_fault {s : State} (hf : s.fault = false) {a : HostAccess} (h : (hostAccess a s).fault = true) :
    hostAccess a s = s.markFault := by
  cases hj : judge s a with
  | error e => simp [hostAccess, hj]
  | ok t => exact absurd ⟨t, hj⟩ ((hostAccess_fault_iff hf a).mp h)

theorem judge_read32_ok_iff (s : State) (addr : Addr) :
    (∃ t, judge s (.read32 addr) = .ok t) ↔ s.rst = false ∧ (regAt addr).isSome = true := by
  cases hr : s.rst with
  | true => simp [judge, hr]
  | false => simp [judge, hr, target32_ok, Option.isSome_iff_exists]

theorem judge_read8_ok_iff (s : State) (addr : Addr) :
    (∃ t, judge s (.read8 addr) = .ok t) ↔ s.rst = false ∧ ∃ t, bufferByteAt s.nIn addr = some t := by
  cases hr : s.rst with
  | true => simp [judge, hr]
  | false => simp [judge, hr, target8_ok]

theorem judge_write32_ok_iff (s : State) (addr : Addr) (v : Word) :
    (∃ t, judge s (.write32 addr v) = .ok t) ↔
      s.rst = false ∧ ∃ r, regAt addr = some r ∧ writeCheck s.status.busy (.reg r) = .ok () := by
  constructor
  · rintro ⟨t, h⟩
    obtain ⟨hr, ⟨r, hreg, rfl⟩, hw⟩ := judge_write32 s addr v t h
    exact ⟨hr, r, hreg, hw⟩
  · rintro ⟨hr, r, hreg, hw⟩
    have ht : target32 s.nIn addr = .ok (.reg r) := (target32_ok ..).mpr ⟨r, hreg, rfl⟩
    exact ⟨.reg r, by simp [judge, hr, ht, hw, bind, Except.bind, pure, Except.pure]⟩

theorem judge_write8_ok_iff (s : State) (addr : Addr) (v : Byte) :
    (∃ t, judge s (.write8 addr v) = .ok t) ↔
      s.rst = false ∧ ∃ t, bufferByteAt s.nIn addr = some t ∧ writeCheck s.status.busy t = .ok () := by
  constructor
  · rintro ⟨t, h⟩
    obtain ⟨hr, ht, hw⟩ := judge_write8 s addr v t h
    exact ⟨hr, t, ht, hw⟩
  · rintro ⟨hr, t, hb, hw⟩
    have ht : target8 s.nIn addr = .ok t := (target8_ok ..).mpr hb
    exact ⟨t, by simp [judge, hr, ht, hw, bind, Except.bind, pure, Except.pure]⟩

/-- The offsets of the registers the host may write, and only while no command is in flight (R27, R230). -/
theorem writableReg_iff (addr : Addr) (busy : Bool) :
    (∃ r, regAt addr = some r ∧ writeCheck busy (.reg r) = .ok ()) ↔
      addr.toNat ∈ [0x000, 0x008, 0x00C, 0x014, 0x020, 0x024, 0x028, 0x02C] ∧ busy = false := by
  unfold regAt
  cases busy <;> split <;> simp_all [writeCheck]

/-- The two windows of R55. -/
theorem exists_bufferByteAt_iff (n : Nat) (addr : Addr) :
    (∃ t, bufferByteAt n addr = some t) ↔
      (0x10000 ≤ addr.toNat ∧ addr.toNat < 0x10000 + n) ∨ (0x20000 ≤ addr.toNat ∧ addr.toNat < 0x20000 + n + 16) := by
  unfold bufferByteAt inBase outBase
  split_ifs <;> simp_all

/-- Of the buffer bytes the host may write those of IN_BUF, and only while no command is in flight (R230). -/
theorem writableByte_iff (n : Nat) (addr : Addr) (busy : Bool) :
    (∃ t, bufferByteAt n addr = some t ∧ writeCheck busy t = .ok ()) ↔
      (0x10000 ≤ addr.toNat ∧ addr.toNat < 0x10000 + n) ∧ busy = false := by
  unfold bufferByteAt inBase outBase
  cases busy <;> split_ifs <;> simp_all [writeCheck]

/-- Settles O44: the fault mark says that the port finds no legal target, and each kind of access has its legal addresses. -/
theorem protocolFaultExactlyWhen : Obligations.ProtocolFaultExactlyWhen := by
  intro s a _ hf
  refine ⟨?_, hostAccess_of_fault hf⟩
  rw [hostAccess_fault_iff hf a]
  cases a with
  | read32 addr =>
    have listed : (regAt addr).isSome = true ↔ addr.toNat ∈
        [0x000, 0x008, 0x00C, 0x014, 0x020, 0x024, 0x028, 0x02C] ++ [0x004, 0x010, 0x018] :=
      (regAt_isSome addr).trans (List.Perm.mem_iff (by decide))
    rw [judge_read32_ok_iff, listed]
    simp only [not_and_or, Bool.not_eq_false]
  | read8 addr =>
    rw [judge_read8_ok_iff, exists_bufferByteAt_iff]
    simp only [not_and_or, not_or, Bool.not_eq_false]
  | write32 addr v =>
    rw [judge_write32_ok_iff, writableReg_iff]
    simp only [not_and_or, Bool.not_eq_false]
  | write8 addr v =>
    rw [judge_write8_ok_iff, writableByte_iff]
    simp only [not_and_or, Bool.not_eq_false]

/-! ## Reads and repeated accesses (R54) -/

/-- The port's verdict depends on the reset input, N_IN and BUSY only. -/
theorem judge_congr {s u : State} (hr : u.rst = s.rst) (hn : u.nIn = s.nIn) (hb : u.status.busy = s.status.busy)
    (a : HostAccess) : judge u a = judge s a := by
  simp only [judge, hr, hn, hb]

/-- Every outcome of a read: the fault mark, or the answer of a legal target. -/
theorem hostAccess_read_cases {a : HostAccess} (ha : ∃ addr, a = .read32 addr ∨ a = .read8 addr) (s : State) :
    hostAccess a s = s.markFault ∨ ∃ t, hostAccess a s = readTarget t s := by
  obtain ⟨addr, rfl | rfl⟩ := ha <;>
  · unfold hostAccess
    split
    · exact .inr ⟨_, rfl⟩
    · exact .inl rfl

/-- An access made twice is the same as made once, if its effect keeps what the verdict depends on and is idempotent. -/
theorem hostAccess_twice {s : State} {a : HostAccess}
    (h : ∀ t, judge s a = .ok t →
      judge (perform a t s) a = judge s a ∧ perform a t (perform a t s) = perform a t s) :
    hostAccess a (hostAccess a s) = hostAccess a s := by
  cases hj : judge s a with
  | error e =>
    have hmark : hostAccess a s = s.markFault := by simp [hostAccess, hj]
    have hj' : judge s.markFault a = .error e := (judge_congr rfl rfl rfl a).trans hj
    rw [hmark, hostAccess, hj']
    rfl
  | ok t =>
    obtain ⟨hverdict, htwice⟩ := h t hj
    rw [hostAccess_of_judge hj, hostAccess_of_judge (hverdict.trans hj), htwice]

/-- No read depends on the port's last answer. -/
theorem readTarget_answer (t : Target) (s : State) (d : ReadData) : readTarget t (s.answer d) = readTarget t s := by
  cases t with
  | reg r =>
    cases r
    case outLen | result => cases hb : s.status.busy <;> simp only [readTarget, readReg, answer_status, hb] <;> rfl
    all_goals rfl
  | inByte i => rfl
  | outByte i =>
    have hv : visibleOut (s.answer d) i = visibleOut s i := rfl
    simp only [readTarget, readOut, hv]
    cases visibleOut s i <;> rfl

theorem readTarget_eq_answer_of_draws {t : Target} {s : State} (h : (readTarget t s).draws = s.draws) :
    ∃ d, readTarget t s = s.answer d := by
  obtain ⟨d, hd | hd⟩ := readTarget_cases t s
  · exact ⟨d, hd⟩
  · rw [hd, answerDrawn_draws] at h
    omega

/-- A read that took no draw, made again, adds nothing. -/
theorem hostAccess_read_twice {s : State} {a : HostAccess} (ha : ∃ addr, a = .read32 addr ∨ a = .read8 addr)
    (hd : (hostAccess a s).draws = s.draws) : hostAccess a (hostAccess a s) = hostAccess a s := by
  refine hostAccess_twice fun t hj => ?_
  rw [hostAccess_of_judge hj] at hd
  have hread (u : State) : perform a t u = readTarget t u := by obtain ⟨addr, rfl | rfl⟩ := ha <;> rfl
  rw [hread] at hd
  obtain ⟨d, hans⟩ := readTarget_eq_answer_of_draws hd
  rw [hread s, hans, hread, readTarget_answer, hans]
  exact ⟨judge_congr rfl rfl rfl a, rfl⟩

theorem quadSet_quadSet_same {α : Type} (q : Quad α) (j : Fin 4) (a b : α) :
    quadSet (quadSet q j a) j b = quadSet q j b := by
  match j with | 0 | 1 | 2 | 3 => rfl

/-- Storing the same value in a register twice is storing it once; CMD stores nothing, it issues. -/
theorem writeReg_twice {r : Reg} (hr : r ≠ .cmd) (v : Word) (s : State) :
    writeReg r v (writeReg r v s) = writeReg r v s := by
  cases r with
  | cmd => exact absurd rfl hr
  | key j => simp only [writeReg, quadSet_quadSet_same]
  | status | keyLen | inLen | outLen | arg | result => rfl

/-- No register write but CMD's moves the port's conditions: the reset input, STATUS, N_IN. -/
theorem writeReg_conditions {r : Reg} (hr : r ≠ .cmd) (v : Word) (s : State) :
    (writeReg r v s).rst = s.rst ∧ (writeReg r v s).status = s.status ∧ (writeReg r v s).nIn = s.nIn := by
  cases r with
  | cmd => exact absurd rfl hr
  | status | keyLen | inLen | outLen | arg | result | key j => exact ⟨rfl, rfl, rfl⟩

theorem writeIn_twice (i : Nat) (v : Byte) (s : State) : writeIn i v (writeIn i v s) = writeIn i v s := by
  simp only [writeIn, Memory.write_write]

theorem hostAccess_write32_twice (s : State) {addr : Addr} (ha : addr ≠ 0#18) (v : Word) :
    hostAccess (.write32 addr v) (hostAccess (.write32 addr v) s) = hostAccess (.write32 addr v) s := by
  refine hostAccess_twice fun t hj => ?_
  obtain ⟨-, ⟨r, hreg, rfl⟩, -⟩ := judge_write32 s addr v t hj
  have hr : r ≠ .cmd := fun h => ha (regAt_cmd addr (h ▸ hreg))
  obtain ⟨hrst, hst, hn⟩ := writeReg_conditions hr v s
  exact ⟨judge_congr hrst hn (congrArg Status.busy hst) _, writeReg_twice hr v s⟩

theorem hostAccess_write8_twice (s : State) (addr : Addr) (v : Byte) :
    hostAccess (.write8 addr v) (hostAccess (.write8 addr v) s) = hostAccess (.write8 addr v) s := by
  refine hostAccess_twice fun t _ => ?_
  cases t with
  | inByte i => exact ⟨judge_congr rfl rfl rfl _, writeIn_twice i v s⟩
  | reg r | outByte i => exact ⟨rfl, rfl⟩

/-- Settles O46: a read's outcomes, and that every access but a CMD write and a read that draws is idempotent. -/
theorem readsHaveNoSideEffects : Obligations.ReadsHaveNoSideEffects := by
  refine ⟨fun s a ha => ?_, fun s a ha hd => hostAccess_read_twice ha hd,
    fun s addr v ha => hostAccess_write32_twice s ha v, hostAccess_write8_twice⟩
  obtain h | ⟨t, h⟩ := hostAccess_read_cases ha s
  · exact .inr h
  · obtain ⟨d, hd | hd⟩ := readTarget_cases t s
    · exact .inl ⟨some d, s.draws, .inl rfl, h.trans hd⟩
    · exact .inl ⟨some d, s.draws + 1, .inr rfl, h.trans hd⟩

/-! ## What a command sees of the writes before it (R57, R84) -/

/-- Legal writes of registers other than CMD, one after another: each register takes its value in turn. -/
theorem foldl_writeRegs (ws : List (Addr × Reg × Word))
    (h : ∀ w ∈ ws, regAt w.1 = some w.2.1 ∧ writeCheck false (.reg w.2.1) = .ok () ∧ w.2.1 ≠ .cmd)
    {s : State} (hr : s.rst = false) (hb : s.status.busy = false) :
    (ws.map fun w => HostAccess.write32 w.1 w.2.2).foldl (fun u a => hostAccess a u) s
      = ws.foldl (fun u w => writeReg w.2.1 w.2.2 u) s := by
  induction ws generalizing s with
  | nil => rfl
  | cons w ws ih =>
    obtain ⟨⟨hreg, hw, hcmd⟩, hws⟩ := List.forall_mem_cons.mp h
    obtain ⟨hrst, hst, -⟩ := writeReg_conditions hcmd w.2.2 s
    rw [List.map_cons, List.foldl_cons, List.foldl_cons, hostAccess_write32 hr hb hreg hw]
    exact ih hws (hrst.trans hr) ((congrArg Status.busy hst).trans hb)

/-- The state with a whole key loaded: four written key registers and KEY_LEN = 16 (R84). -/
def State.withLoadedKey (s : State) (k0 k1 k2 k3 : Word) : State :=
  { s with key := ⟨⟨k0, true⟩, ⟨k1, true⟩, ⟨k2, true⟩, ⟨k3, true⟩⟩, keyLen := 16#8 }

/-- The accesses of LOADKEY (R84). -/
theorem foldl_loadKey {s : State} (hr : s.rst = false) (hb : s.status.busy = false) (k0 k1 k2 k3 : Word) :
    [HostAccess.write32 0x020#18 k0, .write32 0x024#18 k1, .write32 0x028#18 k2, .write32 0x02C#18 k3,
        .write32 0x008#18 16#32].foldl (fun u a => hostAccess a u) s
      = s.withLoadedKey k0 k1 k2 k3 :=
  foldl_writeRegs
    [(0x020#18, .key 0, k0), (0x024#18, .key 1, k1), (0x028#18, .key 2, k2), (0x02C#18, .key 3, k3),
      (0x008#18, .keyLen, 16#32)]
    (by simp [regAt, writeCheck]) hr hb

/-- The byte writes of LOADIN (R84), the first n of them: only IN_BUF changes, and it lists the bytes written. -/
theorem foldl_loadIn {s : State} (hr : s.rst = false) (hb : s.status.busy = false) (hn : s.nIn ≤ 65520) (p : List Byte)
    (n : Nat) (hp : n ≤ s.nIn) :
    ∃ m : Memory, (∀ i, i < n → m.read i = some (p.getD i 0)) ∧
      ((List.range n).map fun i => HostAccess.write8 (BitVec.ofNat 18 (0x10000 + i)) (p.getD i 0)).foldl
        (fun u a => hostAccess a u) s = { s with inBuf := m } := by
  induction n with
  | zero => exact ⟨s.inBuf, fun i hi => absurd hi (Nat.not_lt_zero i), rfl⟩
  | succ n ih =>
    obtain ⟨m, hm, hfold⟩ := ih (Nat.le_of_succ_le hp)
    refine ⟨m.write n (p.getD n 0), fun i hi => ?_, ?_⟩
    · by_cases hin : i = n
      · rw [hin, Memory.read_write_same]
      · rw [Memory.read_write_other _ _ _ _ hin, hm i (by omega)]
    · rw [List.range_succ, List.map_append, List.foldl_append, hfold]
      exact hostAccess_write8 (s := { s with inBuf := m }) hr hb (bufferByteAt_in s.nIn n hn hp) _

/-- The write of IN_LEN that ends LOADIN, and a CMD write (R78, R84). -/
theorem foldl_inLen_cmd {s : State} (hr : s.rst = false) (hb : s.status.busy = false) (n v : Word) :
    [HostAccess.write32 0x00C#18 n, .write32 0x000#18 v].foldl (fun u a => hostAccess a u) s
      = State.issue { s with inLen := n } v := by
  rw [List.foldl_cons, hostAccess_write32 hr hb (r := .inLen) rfl rfl]
  exact hostAccess_write32 (s := { s with inLen := n }) hr hb (r := .cmd) rfl rfl v

/-- A command whose IN_BUF lists the bytes of p, with IN_LEN their number, sees p (R77). -/
theorem inputBytes_eq_of_read {S : Snapshot} {p : List Byte} (hlen : S.inLen.toNat = p.length)
    (h : ∀ i, i < p.length → S.inBuf.read i = some (p.getD i 0)) : inputBytes S = p := by
  refine List.ext_getElem ((inputBytes_length S).trans hlen) fun i hi hp => Option.some.inj ?_
  rw [← List.getElem?_eq_getElem hi, getElem?_inputBytes S i (hlen ▸ hp), inputByte,
    inputByteAt_listed _ _ _ _ (h i hp), List.getD_eq_getElem _ _ hp]

/-- Settles O41: LOADKEY, the byte writes of LOADIN, IN_LEN and CMD one after another; the issue snapshots what stands. -/
theorem commandSeesLoadedKeyAndInput : Obligations.CommandSeesLoadedKeyAndInput := by
  intro s k0 k1 k2 k3 p v hr hb hn hp accesses t
  obtain ⟨m, hm, hfold⟩ := foldl_loadIn (s := s.withLoadedKey k0 k1 k2 k3) hr hb hn p p.length hp
  have issued : t = State.issue { s.withLoadedKey k0 k1 k2 k3 with inBuf := m, inLen := BitVec.ofNat 32 p.length } v := by
    simp only [t, accesses, List.foldl_append]
    rw [foldl_loadKey hr hb, hfold]
    exact foldl_inLen_cmd (s := { s.withLoadedKey k0 k1 k2 k3 with inBuf := m }) hr hb _ v
  have length_fits : (BitVec.ofNat 32 p.length).toNat = p.length := by
    rw [BitVec.toNat_ofNat, Nat.mod_eq_of_lt (by omega)]
  rw [issued]
  exact ⟨rfl, _, rfl, rfl, rfl, rfl, inputBytes_eq_of_read length_fits hm⟩

end Sys2Proof.Machine
end

section
/-! PROOFS. Encoding, issue and completion of commands (spec/30_encoding.md): which words name a command (R70 to R73),
what the two classes of commands touch (R74, R75, R79 to R81), and how a step runs the command in flight (R78, R85). -/

namespace Sys2Proof.Machine

/-! ## Which words name a command (R70 to R73) -/

/-- R72: the rows of the opcode map are the commands with their opcodes. -/
theorem mem_opcodeMap_iff (b : Byte) (i : Instr) : (b, i) ∈ opcodeMap ↔ b = opcodeOf i := by
  constructor
  · have rows : ∀ row ∈ opcodeMap, row.1 = opcodeOf row.2 := by decide
    exact rows (b, i)
  · rintro rfl
    cases i <;> decide

theorem lookup_opcodeMap_iff (b : Byte) (i : Instr) : opcodeMap.lookup b = some i ↔ b = opcodeOf i := by
  constructor
  · intro h
    obtain ⟨before, after, hmap, -⟩ := List.lookup_eq_some_iff.mp h
    exact (mem_opcodeMap_iff b i).mp (by simp [hmap])
  · rintro rfl
    cases i <;> rfl

/-- A word names a command exactly when its reserved bits are 0 and its low byte is the command's opcode (R71). -/
theorem decode_ok_iff (v : Word) (i : Instr) :
    decode v = .ok i ↔ v.extractLsb' 8 24 = 0#24 ∧ opcodeField v = opcodeOf i := by
  rw [← lookup_opcodeMap_iff, decode]
  split
  · rename_i hrsv
    simp [hrsv]
  · rename_i hrsv
    cases opcodeMap.lookup (opcodeField v) <;> simp [not_not.mp hrsv]

/-- A word whose reserved bits are 0 is the zero extension of its low byte. -/
theorem eq_setWidth_iff (v : Word) (b : Byte) :
    v = b.setWidth 32 ↔ v.extractLsb' 8 24 = 0#24 ∧ opcodeField v = b := by
  rw [← BitVec.toNat_inj, ← BitVec.toNat_inj, ← BitVec.toNat_inj]
  simp only [opcodeField, BitVec.toNat_setWidth, BitVec.extractLsb'_toNat, Nat.shiftRight_eq_div_pow, BitVec.toNat_ofNat]
  have hv := v.isLt
  have hb := b.isLt
  omega

/-- R72: "A command word selects one of these rows iff v = zext_32(OPCODE)". -/
theorem decode_ok_iff_eq_encode (v : Word) (i : Instr) : decode v = .ok i ↔ v = encode i := by
  rw [decode_ok_iff, encode, eq_setWidth_iff]

theorem decode_encode (i : Instr) : decode (encode i) = .ok i :=
  (decode_ok_iff_eq_encode _ i).mpr rfl

/-- Settles O1: decoding undoes encoding, and the rows of the map as they stand. -/
theorem wordSelectsCommandIffZextOpcode : Obligations.WordSelectsCommandIffZextOpcode := by
  refine ⟨decode_ok_iff_eq_encode, decode_encode, rfl, fun i => ?_⟩
  cases i <;> decide

/-- The eleven opcodes of R72 are those of the commands. -/
theorem exists_eq_opcodeOf_iff (b : Byte) :
    (∃ i, b = opcodeOf i) ↔
      b ∈ [0x01#8, 0x02#8, 0x11#8, 0x12#8, 0x13#8, 0x21#8, 0x22#8, 0x31#8, 0x32#8, 0x41#8, 0x42#8] := by
  change _ ↔ b ∈ opcodeMap.map Prod.fst
  simp only [List.mem_map, Prod.exists, exists_and_right, exists_eq_right, mem_opcodeMap_iff]

/-- R71: FAMILY and FUNCT name a command exactly when together they are one of the eleven opcodes; byte by byte. -/
theorem opcodeAssigned_iff : ∀ b : Byte,
    (CmdFields.mk 0#24 (b.extractLsb' 4 4) (b.extractLsb' 0 4)).opcodeAssigned = true ↔
      b ∈ [0x01#8, 0x02#8, 0x11#8, 0x12#8, 0x13#8, 0x21#8, 0x22#8, 0x31#8, 0x32#8, 0x41#8, 0x42#8] := by
  decide

/-- FAMILY and FUNCT are the two halves of OPCODE (R70). -/
theorem cmdFields_eq (v : Word) :
    cmdFields v = ⟨v.extractLsb' 8 24, (opcodeField v).extractLsb' 4 4, (opcodeField v).extractLsb' 0 4⟩ := by
  simp [cmdFields, opcodeField, BitVec.extractLsb'_extractLsb'_of_le]

theorem cmdFields_wf_iff (v : Word) :
    (cmdFields v).wf = true ↔ v.extractLsb' 8 24 = 0#24 ∧ ∃ i, opcodeField v = opcodeOf i := by
  rw [exists_eq_opcodeOf_iff, ← opcodeAssigned_iff, cmdFields_eq]
  simp only [CmdFields.wf, CmdFields.rsvOk, CmdFields.opcodeAssigned, Bool.and_eq_true, beq_iff_eq]

/-- Settles O2: legality by the reserved bits and the opcode, in the map's form and in the fields' form. -/
theorem legalWordIffFieldsWellFormed : Obligations.LegalWordIffFieldsWellFormed := by
  intro v
  have legal_iff : (∃ i, decode v = .ok i) ↔ v.extractLsb' 8 24 = 0#24 ∧ ∃ i, opcodeField v = opcodeOf i := by
    simp only [decode_ok_iff, exists_and_left]
  exact ⟨legal_iff.trans (and_congr_right' (exists_eq_opcodeOf_iff _)), legal_iff.trans (cmdFields_wf_iff v).symm⟩

/-- Settles O3: each word is the encoding of its command. -/
theorem commandWordsDecode : Obligations.CommandWordsDecode :=
  ⟨decode_encode .sbox, decode_encode .tau, decode_encode .linLp, decode_encode .tKey, decode_encode .keyExpand,
    decode_encode .linL, decode_encode .tRound, decode_encode .blockFwd, decode_encode .blockRev, decode_encode .ecbEnc,
    decode_encode .ecbDec⟩

/-! ## Issue (R78) -/

/-- Settles O39: at BUSY = 0 the write reaches CMD, which issues; at BUSY = 1 no write is legal. -/
theorem cmdWriteIssuesCommand : Obligations.CmdWriteIssuesCommand := by
  refine ⟨fun s v hr hb => hostAccess_write32 hr hb (r := .cmd) rfl rfl v, fun s v hb => ?_⟩
  cases hj : judge s (.write32 0x000#18 v) with
  | error e => simp only [hostAccess, hj, State.markFault]
  | ok t =>
    obtain ⟨-, -, hw⟩ := judge_write32 s _ v t hj
    obtain ⟨hidle, -⟩ := writeCheck_ok _ t hw
    exact absurd (hb.symm.trans hidle) nofun

/-! ## Completion by the class of the command (R74, R75, R79 to R81) -/

section Completion
variable {i : Instr} {s : State} {S : Snapshot} (hS : s.inflight = some S)
include hS

theorem exec_word (hw : isWordCommand i = true) : exec i s = .next (s.finishWord S (wordResult i S)) := by
  rw [exec_eq, if_pos hw, completeWord_of_inflight _ s S hS]

theorem exec_buffer_ok (hw : isWordCommand i = false) {b : List Byte} (hb : bufferResult i s.nIn S = .ok b) :
    exec i s = .next (s.finishBuffer S b) := by
  rw [exec_eq, if_neg (by simp [hw]), completeBuffer_ok _ s S b hS hb]

theorem exec_buffer_error (hw : isWordCommand i = false) {e : CmdError} (he : bufferResult i s.nIn S = .error e) :
    exec i s = .next (s.raiseError S e) := by
  rw [exec_eq, if_neg (by simp [hw]), completeBuffer_error _ s S e hS he]

end Completion

theorem exec_idle {i : Instr} {s : State} (h : s.inflight = none) : exec i s = .fault .noCommandInFlight := by
  rw [exec_eq]
  split
  · simp only [completeWord, h]
  · simp only [completeBuffer, h]

/-- Whatever a completion delivers, it keeps what commands read and what surrounds them (R79). -/
theorem retire_frame (s : State) (S : Snapshot) (e : Option CmdError) (result outLen : Word) (outBuf : Memory) :
    let t := { s.retire S e with result := result, outLen := outLen, outBuf := outBuf }
    s.sameInputs t ∧ s.sameSurroundings t :=
  ⟨⟨rfl, rfl, rfl, rfl, rfl, fun _ => rfl⟩, ⟨rfl, rfl, rfl, rfl, rfl⟩⟩

/-- What a word command leaves (R80). -/
theorem exec_word_next {i : Instr} {s t : State} (hw : isWordCommand i = true) (h : exec i s = .next t) :
    ∃ S, s.inflight = some S ∧ t = s.finishWord S (wordResult i S) := by
  obtain ⟨S, hS, ⟨-, ht⟩ | ⟨hb, -⟩ | ⟨hb, -⟩⟩ := exec_cases i s t h
  · exact ⟨S, hS, ht⟩
  all_goals exact absurd (hw.symm.trans hb) nofun

/-- Settles O33: the effect of a word completion, and that its result reads ARG only. -/
theorem wordCommandFrame : Obligations.WordCommandFrame := by
  constructor
  · intro i s t hw h
    obtain ⟨S, -, rfl⟩ := exec_word_next hw h
    obtain ⟨inputs, surroundings⟩ := retire_frame s S none (wordResult i S) s.outLen s.outBuf
    exact ⟨inputs, surroundings, rfl, fun _ => rfl, fun _ => rfl, rfl, rfl⟩
  · intro i s s' t t' S S' hw hS hS' harg h h'
    obtain rfl := Host.Outcome.next.inj ((exec_word hS hw).symm.trans h)
    obtain rfl := Host.Outcome.next.inj ((exec_word hS' hw).symm.trans h')
    exact wordResult_congr i S S' harg

/-- Settles O34: the effects of the two buffer completions; an output fits OUT_BUF, and an error leaves none. -/
theorem bufferCommandFrame : Obligations.BufferCommandFrame := by
  intro i s t hw h
  obtain ⟨S, -, ⟨hw', -⟩ | ⟨-, b, hb, rfl⟩ | ⟨-, e, -, rfl⟩⟩ := exec_cases i s t h
  · exact absurd (hw.symm.trans hw') nofun
  · have bound (hcap : capacityOk s.nIn) : (s.finishBuffer S b).outLen.toNat ≤ s.nIn + 16 := by
      obtain ⟨h16, h112, -⟩ := hcap
      rw [finishBuffer_outLen, BitVec.toNat_ofNat]
      exact (Nat.mod_le _ _).trans (bufferResult_length i s.nIn S b h16 h112 hb)
    obtain ⟨inputs, surroundings⟩ := retire_frame s S none s.result (BitVec.ofNat 32 b.length) (.ofBytes b)
    exact ⟨inputs, surroundings, rfl, fun _ => rfl, fun _ => visibleOut_above, nofun, bound, rfl⟩
  · obtain ⟨inputs, surroundings⟩ := retire_frame s S (some e) s.result 0#32 []
    exact ⟨inputs, surroundings, rfl, fun _ => rfl, fun _ => visibleOut_above, fun _ => rfl, fun _ => Nat.zero_le _, rfl⟩

/-- Settles O35: each of the three completions exists for a snapshot, and delivers a function of it and N_IN. -/
theorem completionDependsOnSnapshotOnly : Obligations.CompletionDependsOnSnapshotOnly := by
  refine ⟨fun i s S hS => ?_, fun i s s' t t' _ hsame hn h h' => ?_, fun i s h => exec_idle h⟩
  · cases hw : isWordCommand i with
    | true => exact ⟨_, exec_word hS hw, rfl, rfl, rfl, rfl⟩
    | false =>
      cases hres : bufferResult i s.nIn S with
      | ok b => exact ⟨_, exec_buffer_ok hS hw hres, rfl, rfl, rfl, rfl⟩
      | error e => exact ⟨_, exec_buffer_error hS hw hres, rfl, rfl, rfl, rfl⟩
  · obtain ⟨S, hS, ⟨hw, rfl⟩ | ⟨hw, b, hb, rfl⟩ | ⟨hw, e, he, rfl⟩⟩ := exec_cases i s t h
    · obtain rfl := Host.Outcome.next.inj ((exec_word (hsame ▸ hS) hw).symm.trans h')
      exact ⟨rfl, fun _ => rfl, fun hw' => absurd (hw.symm.trans hw') nofun⟩
    · obtain rfl := Host.Outcome.next.inj ((exec_buffer_ok (hsame ▸ hS) hw (hn ▸ hb)).symm.trans h')
      exact ⟨rfl, fun hw' => absurd (hw.symm.trans hw') nofun, fun _ => ⟨rfl, rfl⟩⟩
    · obtain rfl := Host.Outcome.next.inj ((exec_buffer_error (hsame ▸ hS) hw (hn ▸ he)).symm.trans h')
      exact ⟨rfl, fun hw' => absurd (hw.symm.trans hw') nofun, fun _ => ⟨rfl, rfl⟩⟩

/-! ## The completing core step (R73, R79, R85) -/

section CoreStep
variable {s : State} {S : Snapshot} (hr : s.rst = false) (hb : s.status.busy = true) (hS : s.inflight = some S)
include hr hb hS

theorem coreStep_of_decode_ok {i : Instr} (hd : decode S.cmd = .ok i) : coreStep s = exec i s := by
  simp [coreStep, hr, hb, hS, hd]

theorem coreStep_of_decode_error {e : DecodeReject} (hd : decode S.cmd = .error e) :
    coreStep s = .next (s.finishIllegal S) := by
  simp [coreStep, hr, hb, hS, hd]

end CoreStep

/-- No opcode of R72 lies in the ranges that R73 lists. -/
theorem opcodeOf_not_in_illegal_ranges (i : Instr) :
    let o := (opcodeOf i).toNat
    ¬ (o = 0 ∨ (0x03 ≤ o ∧ o ≤ 0x10) ∨ (0x14 ≤ o ∧ o ≤ 0x20) ∨ (0x23 ≤ o ∧ o ≤ 0x30) ∨ (0x33 ≤ o ∧ o ≤ 0x40) ∨
      0x43 ≤ o) := by
  cases i <;> decide

/-- Settles O38: a word that names a command has reserved bits 0 and one of the eleven opcodes; the issue is the write of
CMD as for any word, and the completion is that of the illegal command. -/
theorem illegalCommandChangesOnlyStatus : Obligations.IllegalCommandChangesOnlyStatus := by
  refine ⟨fun v hrsv i hd => hrsv ((decode_ok_iff v i).mp hd).1, fun v ho i hd => ?_,
    fun s v _ hr hb => hostAccess_write32 hr hb (r := .cmd) rfl rfl v, fun s S hr hb hS hill => ?_⟩
  · obtain ⟨-, hop⟩ := (decode_ok_iff v i).mp hd
    rw [show v.extractLsb' 0 8 = opcodeOf i from hop] at ho
    exact opcodeOf_not_in_illegal_ranges i ho
  · cases hd : decode S.cmd with
    | ok i => exact absurd hd (hill i)
    | error e =>
      obtain ⟨inputs, surroundings⟩ := retire_frame s S (some .illegalCommand) s.result s.outLen s.outBuf
      exact ⟨_, coreStep_of_decode_error hr hb hS hd, rfl, inputs, ⟨rfl, rfl, fun _ => rfl⟩, surroundings, rfl⟩

/-! ## The step (R20, R79) -/

/-- With no turn listed the core moves (log 6). -/
theorem step_of_no_turn {s : State} (hf : s.fault = false) (hi : s.inputs = []) : step s = coreStep s := by
  simp [step, hi, hf]

/-- With no fault, the step is the turn that is due. -/
theorem step_of_turn {s : State} {turn : Turn} {rest : List Turn} (hf : s.fault = false) (hi : s.inputs = turn :: rest) :
    step s = takeTurn turn { s with inputs := rest } := by
  simp [step, hi, hf]

/-- A 32-bit word is the low 32 bits of the number it is made of. -/
theorem ofNat_low_bits (w : Nat) : BitVec.ofNat 32 (w % 2 ^ 32) = BitVec.ofNat 32 w :=
  BitVec.eq_of_toNat_eq (by simp)

/-- The state in which withFetchWord's word completes: issued, with the fault mark and the reset level dropped (log 7). -/
def State.fetched (s : State) (v : Word) : State := { s.issue v with fault := false, rst := false }

theorem fetched_coreStep {s : State} {v : Word} {i : Instr} (hd : decode v = .ok i) :
    coreStep (s.fetched v) = exec i (s.fetched v) :=
  coreStep_of_decode_ok (S := s.snapshot v) rfl rfl rfl hd

/-- The next step after withFetchWord is the completing core step, whatever turns were to come (log 7). -/
theorem step_withFetchWord (s : State) (w : Nat) :
    step (s.withFetchWord 32 w) = coreStep (s.fetched (BitVec.ofNat 32 w)) := by
  simp only [State.withFetchWord, ofNat_low_bits]
  cases hi : s.inputs with
  | nil =>
    rw [step_of_no_turn rfl rfl]
    simp only [State.fetched, issue_inputs, hi]
  | cons turn rest =>
    rw [step_of_turn rfl rfl]
    simp only [takeTurn, State.fetched, issue_inputs, hi]

theorem decode_of_decodeTableWord {w : Nat} {i : Instr} (h : decodeTableWord 32 w = some i) :
    decode (BitVec.ofNat 32 w) = .ok i := by
  rw [decodeTableWord, ofNat_low_bits] at h
  cases hd : decode (BitVec.ofNat 32 w) with
  | ok j => simpa [hd] using h
  | error e => simp [hd] at h

/-- Settles O40: the turn that is due, and the completing core step by what the word in flight decodes to. -/
theorem stepRunsDecodedCommand : Obligations.StepRunsDecodedCommand := by
  refine ⟨fun s S i hf hr hb hS hd => ⟨fun hi => ?_, fun rest hi => ?_, fun rest hi => step_of_turn hf hi⟩,
    fun s a rest hf hi => step_of_turn hf hi, fun s w i h => ?_⟩
  · exact (step_of_no_turn hf hi).trans (coreStep_of_decode_ok hr hb hS hd)
  · exact (step_of_turn hf hi).trans (coreStep_of_decode_ok (s := { s with inputs := rest }) hr hb hS hd)
  · exact (step_withFetchWord s w).trans (fetched_coreStep (decode_of_decodeTableWord h))

end Sys2Proof.Machine
end

section
/-! PROOFS. The S-box and the substitution layer (spec/40_sbox.md): Sbox is a bijection (R102), and so is τ, lane by lane
(R103); what the commands SBOX and TAU deliver (R104, R105). -/

namespace Sys2Proof.Machine

/-! ## The S-box (R102) -/

/-- The table of R101 inverted, in the same layout. The core has no such ROM (R102): here it witnesses that each of the 256
values occurs exactly once. -/
def sboxInverseRows : List (BitVec 128) :=
  [0x716C7AB8160F1E4135EBD02AE4AC625A#128,
   0xCDC8DB1A0A8E0846F04B96C132A060CC#128,
   0xF76D69AA61681B760CA914100ED8A3B7#128,
   0x9BD29A28955F79B286FEF46B4A06FB3E#128,
   0x84CB212B19B37240FF1CE35B78F6AE4E#128,
   0x22BF77AD29975D736549CEBECA9263FA#128,
   0xA78D2F6455E8A51150E1BA51BDBCEDAF#128,
   0x5C54BB45D93C13E66EF827D66AF2E7C7#128,
   0x3852A448EF4D1D6FD3E082579DC0B63D#128,
   0x0124C3993A37E5E2261F1294205E7F74#128,
   0x7C8F678893D43F424F3318AB2E9891C2#128,
   0xDF9E5331DE870907DCE947C4C6D71581#128,
   0xA8D10B177DECEE857E34A6FD04D58B2D#128,
   0xDA66837570B000FCCFC956B1F5C5B439#128,
   0x9005A29F30DD4C7B36028059F32CF925#128,
   0xF1EA8A44239CA189588C3B0D43B503B9#128]

/-- The index of a value in the S-box ROM. -/
def sboxInverse (v : Byte) : Byte :=
  ((sboxInverseRows.getD (v.extractLsb' 4 4).toNat 0#128) >>> (8 * (15 - (v.extractLsb' 0 4).toNat))).setWidth 8

theorem sboxInverse_sbox : ∀ b : Byte, sboxInverse (sbox b) = b := by decide

theorem sbox_bijective : Function.Bijective sbox :=
  Finite.injective_iff_bijective.mp (Function.LeftInverse.injective sboxInverse_sbox)

theorem sbox_eq_self_iff : ∀ b : Byte, sbox b = b ↔ b = 0xAB#8 := by decide

/-- Settles O4: the table has an inverse, and its entries are compared with their own index. -/
theorem sboxIsBijection : Obligations.SboxIsBijection :=
  ⟨sbox_bijective, sbox_eq_self_iff⟩

/-! ## The substitution layer (R103) -/

theorem tau_be32 (b0 b1 b2 b3 : Byte) : tau (be32 b0 b1 b2 b3) = be32 (sbox b0) (sbox b1) (sbox b2) (sbox b3) := by
  obtain ⟨h0, h1, h2, h3⟩ := byte_of_be32 b0 b1 b2 b3
  rw [tau, h0, h1, h2, h3]

theorem tau_lane (a : Word) (k : Nat) (hk : k < 4) :
    (tau a).extractLsb' (8 * k) 8 = sbox (a.extractLsb' (8 * k) 8) := by
  obtain ⟨h3, h2, h1, h0⟩ := byte_of_be32 (sbox (a.extractLsb' 24 8)) (sbox (a.extractLsb' 16 8))
    (sbox (a.extractLsb' 8 8)) (sbox (a.extractLsb' 0 8))
  match k, hk with
  | 0, _ => exact h0
  | 1, _ => exact h1
  | 2, _ => exact h2
  | 3, _ => exact h3

/-- Every word is a value of τ: each of its bytes is an entry of the S-box. -/
theorem tau_surjective : Function.Surjective tau := by
  intro w
  obtain ⟨b0, h0⟩ := sbox_bijective.surjective (w.extractLsb' 24 8)
  obtain ⟨b1, h1⟩ := sbox_bijective.surjective (w.extractLsb' 16 8)
  obtain ⟨b2, h2⟩ := sbox_bijective.surjective (w.extractLsb' 8 8)
  obtain ⟨b3, h3⟩ := sbox_bijective.surjective (w.extractLsb' 0 8)
  exact ⟨be32 b0 b1 b2 b3, by rw [tau_be32, h0, h1, h2, h3, be32_of_bytes]⟩

theorem tau_bijective : Function.Bijective tau :=
  Finite.surjective_iff_bijective.mp tau_surjective

/-- Settles O5: lane by lane, and by the bijection of each lane. -/
theorem tauSubstitutesEachByte : Obligations.TauSubstitutesEachByte :=
  ⟨tau_lane, tau_bijective⟩

/-! ## The commands SBOX and TAU (R104, R105) -/

/-- `zext_32` of a byte, as the concatenation with 24 zeros. -/
theorem setWidth_byte_eq_append (b : Byte) : b.setWidth 32 = 0#24 ++ b :=
  BitVec.setWidth_eq_append (by decide)

/-- Settles O22: the completion of a word command, with the S-box's corner values. -/
theorem sboxCommandResult : Obligations.SboxCommandResult := by
  refine ⟨decode_encode .sbox, fun s S hS => ?_, by decide, by decide, sbox_eq_self_iff, by decide⟩
  exact ⟨_, exec_word hS rfl, setWidth_byte_eq_append _, rfl, rfl, rfl⟩

/-- Settles O23: the completion of a word command; equal bytes give equal bytes by the law of τ on four bytes. -/
theorem tauCommandResult : Obligations.TauCommandResult := by
  refine ⟨decode_encode .tau, fun s S hS => ?_, fun d => tau_be32 d d d d, ?_⟩
  · exact ⟨_, exec_word hS rfl, rfl, rfl⟩
  · decide

end Sys2Proof.Machine
end

section
/-! PROOFS. The key schedule (spec/41_key_schedule.md): the round constants (R121), L′ (R122) beside L (R150), the
recurrence of the round keys (R124), one buffer's pass through the engines (R126), and what the commands LIN_LP, T_KEY and
KEY_EXPAND deliver (R127 to R129). -/

namespace Sys2Proof.Machine

/-! ## The recurrence of the round keys (R124) -/

/-- The word k[n] of R124: the first of the window k[n..n+3]. -/
def keyWord (key : List Byte) (n : Nat) : Word := (keyWindow key n).w0

/-- A round only shifts, so each word of a window is the first word of a later one. -/
theorem keyWindow_eq (key : List Byte) (n : Nat) :
    keyWindow key n = ⟨keyWord key n, keyWord key (n + 1), keyWord key (n + 2), keyWord key (n + 3)⟩ := rfl

/-- The word that window n derives comes first four rounds later. -/
theorem keyWord_add_four (key : List Byte) (n : Nat) :
    keyWord key (n + 4) = nextKeyWord (keyWindow key n) (ckTable.getD n 0#32) := rfl

/-- Round key n is k[n+4]: derivation order. -/
theorem getElem?_expand_eq_keyWord (key : List Byte) (n : Nat) (hn : n < 32) :
    (expand key)[n]? = some (keyWord key (n + 4)) := getElem?_expand key n hn

theorem expand_eq_map_keyWord (key : List Byte) : expand key = (List.range 32).map fun i => keyWord key (i + 4) := by
  refine List.ext_getElem? fun i => ?_
  by_cases hi : i < 32
  · rw [getElem?_expand_eq_keyWord key i hi, List.getElem?_map, List.getElem?_range hi, Option.map_some]
  · rw [List.getElem?_eq_none (by simpa using hi), List.getElem?_eq_none (by simpa using hi)]

/-- Settles O10: the sequence is the first words of the windows; the engine's K is window n, and its RK the round keys
derived so far. -/
theorem roundKeysFollowRecurrence : Obligations.RoundKeysFollowRecurrence := by
  intro key _
  refine ⟨keyWord key, rfl, rfl, rfl, rfl, fun i _ => keyWord_add_four key i, expand_eq_map_keyWord key, fun d n hn => ?_⟩
  obtain ⟨hk, -, hrk⟩ := keyRounds_state d key n hn
  exact ⟨hk, fun i hi => (hrk i hi).trans (getElem?_expand_eq_keyWord key i (by omega))⟩

/-! ## One buffer through the engines (R126) -/

/-- The Feistel engine leaves RK alone, so every block is processed under the same schedule. -/
theorem runBlocks_eq_map (reversed : Bool) (d : Datapath) (blocks : List (List Byte)) :
    runBlocks reversed d blocks = blocks.map fun b => processBlock b (readOrder reversed d.rk) := by
  induction blocks generalizing d with
  | nil => rfl
  | cons b bs ih =>
    obtain ⟨houtput, hrk, -⟩ := feistelEngineComputesProcessBlock d b reversed
    simp only [runBlocks, List.map_cons, ih, houtput, hrk]
    rfl

theorem runBuffer_eq_processBlocks (reversed : Bool) (d : Datapath) (key q : List Byte) :
    d.runBuffer reversed key q = processBlocks (readOrder reversed (d.runKeySchedule key).rk) q := by
  rw [Datapath.runBuffer, runBlocks_eq_map, processBlocks]

/-- Settles O15: the key engine leaves expand in RK, and both passes run every block under it. -/
theorem enginesRefineCodec : Obligations.EnginesRefineCodec := by
  intro d key p c
  obtain ⟨hrk, -, -⟩ := keyEngineLeavesScheduleInRK d key
  simp only [runBuffer_eq_processBlocks, readOrder, hrk]
  exact ⟨rfl, rfl⟩

/-! ## The round constants (R121) -/

/-- Settles O9: the table written out has these 32 words. -/
theorem roundConstantsFollowByteFormula : Obligations.RoundConstantsFollowByteFormula :=
  ⟨ckTable_length, by decide⟩

/-! ## The linear transforms (R122, R150) -/

theorem transLp_xor (a b : Word) : transLp (a ^^^ b) = transLp a ^^^ transLp b := by
  simp only [transLp, rotl32_xor]; ac_rfl

theorem transL_xor (a b : Word) : transL (a ^^^ b) = transL a ^^^ transL b := by
  simp only [transL, rotl32_xor]; ac_rfl

/-- The word 1 shows the rotations of each. -/
theorem transL_ne_transLp : transL ≠ transLp :=
  fun h => absurd (congrFun h 1#32) (by decide)

/-- Settles O6: a rotation distributes over XOR, so both transforms do. -/
theorem linearTransformsAreLinear : Obligations.LinearTransformsAreLinear :=
  ⟨fun _ => rfl, transLp_xor, by decide, fun _ => rfl, transL_xor, by decide, transL_ne_transLp⟩

/-! ## Words whose four bytes are equal (R128) -/

theorem getLsbD_be32_same (e : Byte) (i : Nat) (hi : i < 32) : (be32 e e e e).getLsbD i = e.getLsbD (i % 8) := by
  simp only [be32, BitVec.getLsbD_append]
  split
  · congr 1; omega
  split
  · congr 1; omega
  split <;> congr 1 <;> omega

/-- A rotation of four equal bytes rotates each byte. -/
theorem rotl32_be32_same (e : Byte) (n : Nat) (hn : n < 32) :
    rotl32 (be32 e e e e) n = be32 (e.rotateLeft n) (e.rotateLeft n) (e.rotateLeft n) (e.rotateLeft n) := by
  apply BitVec.eq_of_getLsbD_eq
  intro i hi
  rw [rotl32_getLsbD _ n i hn hi, getLsbD_be32_same _ _ (Nat.mod_lt _ (by decide)), getLsbD_be32_same _ i hi,
    BitVec.getLsbD_rotateLeft]
  by_cases h : i % 8 < n % 8
  · simp only [h, decide_true, cond_true]; congr 1; omega
  · have hi8 : i % 8 < 8 := Nat.mod_lt _ (by decide)
    simp only [h, hi8, decide_true, decide_false, cond_false, Bool.true_and]; congr 1; omega

theorem be32_xor (a0 a1 a2 a3 b0 b1 b2 b3 : Byte) :
    be32 a0 a1 a2 a3 ^^^ be32 b0 b1 b2 b3 = be32 (a0 ^^^ b0) (a1 ^^^ b1) (a2 ^^^ b2) (a3 ^^^ b3) := by
  change (a0 ++ a1 ++ a2 ++ a3 ^^^ b0 ++ b1 ++ b2 ++ b3 : BitVec (8 + 8 + 8 + 8)) = _
  rw [BitVec.xor_append, BitVec.xor_append, BitVec.xor_append]
  rfl

/-- L′ maps four equal bytes to four equal bytes: modulo 8 its rotations are by 5 and 7. -/
theorem transLp_be32_same (e : Byte) :
    let f := e ^^^ e.rotateLeft 5 ^^^ e.rotateLeft 7
    transLp (be32 e e e e) = be32 f f f f := by
  simp only [transLp, rotl32_be32_same e _ (show 13 < 32 by decide), rotl32_be32_same e _ (show 23 < 32 by decide), be32_xor]
  rfl

/-! ## The commands LIN_LP and T_KEY (R127, R128) -/

/-- Settles O24: the completion of a word command, with the corner values of L′. -/
theorem linLpCommandResult : Obligations.LinLpCommandResult := by
  refine ⟨decode_encode .linLp, fun s S hS => ?_, by decide⟩
  exact ⟨_, exec_word hS rfl, rfl, rfl⟩

/-- Settles O25: the completion of a word command; equal bytes stay equal through τ and through L′. -/
theorem tKeyCommandResult : Obligations.TKeyCommandResult := by
  refine ⟨decode_encode .tKey, fun s S hS => ?_, transLp_be32_same, fun d => tau_be32 d d d d, by decide⟩
  exact ⟨_, exec_word hS rfl, rfl, rfl⟩

/-! ## The command KEY_EXPAND (R129) -/

/-- A buffer command that succeeds shows the host its bytes and no others (R79). -/
theorem finishBuffer_outputIs (s : State) (S : Snapshot) {b : List Byte} (hb : b.length < 2 ^ 32) :
    (s.finishBuffer S b).outputIs b := by
  have hlen : (s.finishBuffer S b).outLen.toNat = b.length := by
    rw [finishBuffer_outLen, BitVec.toNat_ofNat, Nat.mod_eq_of_lt hb]
  refine ⟨hlen, fun i => ?_⟩
  by_cases hi : i < b.length
  · rw [visibleOut_below rfl (hlen ▸ hi), finishBuffer_outBuf, Memory.read_ofBytes]
  · rw [visibleOut_above (by omega), List.getElem?_eq_none (by omega)]

theorem scheduleBytes_cons (r : Word) (rs : List Word) : scheduleBytes (r :: rs) = unbe32 r ++ scheduleBytes rs := rfl

/-- Byte j of round key i is at offset 4i + j. -/
theorem getElem?_scheduleBytes (rks : List Word) (i j : Nat) (hi : i < rks.length) (hj : j < 4) :
    (scheduleBytes rks)[4 * i + j]? = (unbe32 (rks.getD i 0#32))[j]? := by
  induction rks generalizing i with
  | nil => exact absurd hi (Nat.not_lt_zero i)
  | cons r rs ih =>
    rw [scheduleBytes_cons]
    cases i with
    | zero => rw [Nat.mul_zero, Nat.zero_add, List.getElem?_append_left hj, List.getD_cons_zero]
    | succ i =>
      have hoffset : 4 * (i + 1) + j = (unbe32 r).length + (4 * i + j) := by rw [unbe32_length]; omega
      rw [hoffset, List.getElem?_append_right (Nat.le_add_right ..), Nat.add_sub_cancel_left, List.getD_cons_succ]
      exact ih i (Nat.lt_of_succ_lt_succ hi)

/-- Settles O26: the two completions of a buffer command by KEY_LEN; the output is the schedule's bytes. -/
theorem keyExpandCommandResult : Obligations.KeyExpandCommandResult := by
  refine ⟨decode_encode .keyExpand, fun s S hS hk => ?_, fun s S hS hk => ?_, ?_, by decide, by decide, by decide⟩
  · have hok : bufferResult .keyExpand s.nIn S = .ok (scheduleBytes (expand (bytes (keyWords S)))) :=
      (keyExpandResult_eq S).trans (if_pos hk)
    obtain ⟨-, hout⟩ := finishBuffer_outputIs s S (b := scheduleBytes (expand (bytes (keyWords S)))) (by simp)
    refine ⟨_, exec_buffer_ok hS rfl hok, by simp, rfl, fun i hi => ?_⟩
    have hbyte (j : Nat) (hj : j < 4) := (hout (4 * i + j)).trans (getElem?_scheduleBytes _ i j (by simpa using hi) hj)
    rw [show visibleOut _ (4 * i) = _ from hbyte 0 (by decide), hbyte 1 (by decide), hbyte 2 (by decide), hbyte 3 (by decide)]
    rfl
  · have herr : bufferResult .keyExpand s.nIn S = .error .invalidKeyLength := (keyExpandResult_eq S).trans (if_neg hk)
    exact ⟨_, exec_buffer_error hS rfl herr, rfl, rfl⟩
  · rintro nIn ⟨-, hmin, -⟩
    omega

end Sys2Proof.Machine
end

section
/-! PROOFS. The round function (spec/42_round_function.md): L is invertible, since four applications of it are a rotation,
so T is a bijection (R153); what the commands LIN_L and T_ROUND deliver (R152, R153). -/

namespace Sys2Proof.Machine

/-! ## L is invertible (R153)

R153 computes a rank. Here: over GF(2), L is the polynomial 1 + r² + r¹⁰ + r¹⁸ + r²⁴ in the rotation r by one place, with
r³² = 1. Its square is 1 + r¹⁶ + r²⁰ and its fourth power is r⁸, which a rotation by 24 undoes. -/

/-- A word XORed with itself drops out of a sum. -/
theorem xor_pair (a s : Word) : a ^^^ (s ^^^ s) = a := by
  rw [BitVec.xor_self, BitVec.xor_zero]

/-- L twice. Of the 25 rotations all but three come in pairs; each pair stands once on either side of the XOR put in. -/
theorem transL_transL (x : Word) : transL (transL x) = x ^^^ rotl32 x 16 ^^^ rotl32 x 20 := by
  rw [← xor_pair (x ^^^ rotl32 x 16 ^^^ rotl32 x 20) (rotl32 x 2 ^^^ rotl32 x 10 ^^^ rotl32 x 18 ^^^ rotl32 x 24 ^^^
    rotl32 x 12 ^^^ rotl32 x 20 ^^^ rotl32 x 26 ^^^ rotl32 x 28 ^^^ rotl32 x 2 ^^^ rotl32 x 10 ^^^ rotl32 x 4)]
  simp (disch := decide) only [transL, rotl32_xor, rotl32_rotl32, Nat.reduceAdd, Nat.reduceMod]
  ac_rfl

/-- L four times: of the nine rotations only the one by 40, that is by 8 places, has no partner. -/
theorem transL_four (x : Word) : transL (transL (transL (transL x))) = rotl32 x 8 := by
  rw [← xor_pair (rotl32 x 8) (x ^^^ rotl32 x 16 ^^^ rotl32 x 20 ^^^ rotl32 x 4), transL_transL, transL_transL]
  simp (disch := decide) only [rotl32_xor, rotl32_rotl32, Nat.reduceAdd, Nat.reduceMod, rotl32_zero]
  ac_rfl

/-- The inverse of L. No command computes it: it witnesses that L is invertible. -/
def transLInverse (y : Word) : Word := rotl32 (transL (transL (transL y))) 24

theorem transLInverse_transL (x : Word) : transLInverse (transL x) = x := by
  rw [transLInverse, transL_four, rotl32_rotl32 x 8 24 (by decide) (by decide), rotl32_zero]

theorem transL_bijective : Function.Bijective transL :=
  Finite.injective_iff_bijective.mp (Function.LeftInverse.injective transLInverse_transL)

theorem transT_bijective : Function.Bijective transT :=
  transL_bijective.comp tau_bijective

/-! ## The commands LIN_L and T_ROUND (R152, R153) -/

/-- Settles O27: the completion of a word command, with the corner values of L. -/
theorem linLCommandResult : Obligations.LinLCommandResult := by
  refine ⟨decode_encode .linL, fun s S hS => ?_, by decide⟩
  exact ⟨_, exec_word hS rfl, rfl, rfl⟩

/-- Settles O28: the completion of a word command, with the corner values of T; τ and L are bijections, so T is one. -/
theorem tRoundCommandResult : Obligations.TRoundCommandResult := by
  refine ⟨decode_encode .tRound, fun s S hS => ?_, by decide, by decide, by decide, by decide, by decide, by decide,
    transL_bijective, transT_bijective⟩
  exact ⟨_, exec_word hS rfl, rfl, rfl⟩

end Sys2Proof.Machine
end

section
/-! PROOFS. The block cipher (spec/43_block_cipher.md): the recurrence of the block words (R170 to R172), the self-inverse
property (R174), and what the commands BLOCK_FWD and BLOCK_REV deliver (R175, R176). -/

namespace Sys2Proof.Machine

/-! ## The recurrence of the block words (R170 to R172) -/

/-- The window X(n)..X(n+3) of R171. -/
def blockWindow (block : List Byte) (rks : List Word) : Nat → Quad Word
  | 0 => words block
  | n + 1 => feistelRound (blockWindow block rks n) (rks.getD n 0#32)

/-- The word X(n) of R171: the first of the window X(n)..X(n+3). -/
def blockWord (block : List Byte) (rks : List Word) (n : Nat) : Word := (blockWindow block rks n).w0

/-- A round only shifts, so each word of a window is the first word of a later one. -/
theorem blockWindow_eq (block : List Byte) (rks : List Word) (n : Nat) :
    blockWindow block rks n = ⟨blockWord block rks n, blockWord block rks (n + 1), blockWord block rks (n + 2),
      blockWord block rks (n + 3)⟩ := rfl

/-- The word that window n derives comes first four rounds later. -/
theorem blockWord_add_four (block : List Byte) (rks : List Word) (n : Nat) :
    blockWord block rks (n + 4) = nextBlockWord (blockWindow block rks n) (rks.getD n 0#32) := rfl

/-- The rounds of the first n round keys lead to window n. -/
theorem foldl_take_feistelRound (block : List Byte) (rks : List Word) (n : Nat) (hn : n ≤ rks.length) :
    (rks.take n).foldl feistelRound (words block) = blockWindow block rks n := by
  induction n with
  | zero => rfl
  | succ n ih =>
    rw [List.take_succ_eq_append_getElem hn, List.foldl_append, ih (Nat.le_of_succ_le hn), blockWindow,
      List.getD_eq_getElem _ _ hn]
    rfl

/-- R172: processBlock delivers the last window reversed. -/
theorem processBlock_eq_blockWindow (block : List Byte) (rks : List Word) :
    processBlock block rks = bytes (reverseWindow (blockWindow block rks rks.length)) := by
  rw [processBlock, ← foldl_take_feistelRound block rks rks.length (Nat.le_refl _), List.take_length]

/-- Settles O11: the sequence is the first words of the windows; after 32 rounds the window is X32..X35. -/
theorem blockWordsFollowRecurrence : Obligations.BlockWordsFollowRecurrence := by
  intro block rks _ hlen
  refine ⟨blockWord block rks, rfl, fun r _ => blockWord_add_four block rks r, fun n hn => ?_, ?_⟩
  · exact foldl_take_feistelRound block rks n (hlen ▸ hn)
  · rw [processBlock_eq_blockWindow, hlen]
    rfl

/-! ## The self-inverse property (R174) -/

/-- A round on the reversed window undoes the round with the same key: T sees the same three words in the other order, so
`x0 = new ⊕ T(x1 ⊕ x2 ⊕ x3 ⊕ rk)`. -/
theorem feistelRound_reverseWindow (x : Quad Word) (rk : Word) :
    feistelRound (reverseWindow (feistelRound x rk)) rk = reverseWindow x := by
  have hsum : x.w3 ^^^ x.w2 ^^^ x.w1 ^^^ rk = x.w1 ^^^ x.w2 ^^^ x.w3 ^^^ rk := by ac_rfl
  have hnew : nextBlockWord (reverseWindow (feistelRound x rk)) rk = x.w0 := by
    calc nextBlockWord (reverseWindow (feistelRound x rk)) rk
      _ = nextBlockWord x rk ^^^ transT (x.w3 ^^^ x.w2 ^^^ x.w1 ^^^ rk) := rfl
      _ = x.w0 := by rw [hsum, nextBlockWord, BitVec.xor_assoc, BitVec.xor_self, BitVec.xor_zero]
  rw [feistelRound_eq, hnew]
  rfl

/-- The rounds in reverse key order, from the reversed window, undo all the rounds, the last one first. -/
theorem foldl_reverse_feistelRound (keys : List Word) (x : Quad Word) :
    keys.reverse.foldl feistelRound (reverseWindow (keys.foldl feistelRound x)) = reverseWindow x := by
  induction keys generalizing x with
  | nil => rfl
  | cons rk rks ih =>
    rw [List.foldl_cons, List.reverse_cons, List.foldl_append, ih]
    exact feistelRound_reverseWindow x rk

/-- Settles O12: the second call starts from the reversed last window, and its own reversal restores the block's words. -/
theorem blockCipherSelfInverse : Obligations.BlockCipherSelfInverse := by
  intro block keys hlen
  rw [processBlock, processBlock, words_bytes, foldl_reverse_feistelRound, reverseWindow_reverseWindow, bytes_words block hlen]

/-! ## The commands BLOCK_FWD and BLOCK_REV (R175, R176)

"One algorithm for both directions" (R173): the two commands differ in the order of the round keys only, so each kind of
completion is proved once for both. -/

/-- BLOCK_FWD, or BLOCK_REV for the reversed schedule. -/
def blockCommand (reversed : Bool) : Instr := if reversed then .blockRev else .blockFwd

/-- The round keys in the order in which the command's rounds use them (R173). -/
def blockSchedule (reversed : Bool) (key : List Byte) : List Word :=
  if reversed then (expand key).reverse else expand key

theorem isWordCommand_blockCommand (reversed : Bool) : isWordCommand (blockCommand reversed) = false := by
  cases reversed <;> rfl

/-- What either command computes, as one case distinction. -/
theorem bufferResult_blockCommand (reversed : Bool) (nIn : Nat) (S : Snapshot) :
    bufferResult (blockCommand reversed) nIn S
      = if S.inLen.toNat ≤ nIn ∧ S.inLen.toNat = 16 then
          if S.keyLen = 16#8 then .ok (processBlock (inputBytes S) (blockSchedule reversed (bytes (keyWords S))))
          else .error .invalidKeyLength
        else .error .inputLengthRange := by
  cases reversed with
  | false => exact blockFwdResult_eq nIn S
  | true => exact blockRevResult_eq nIn S

/-- One block passes the two length checks: every legal capacity holds it (R7). -/
theorem oneBlock_in_range {nIn : Nat} {S : Snapshot} (hcap : capacityOk nIn) (hin : S.inLen = 16#32) :
    S.inLen.toNat ≤ nIn ∧ S.inLen.toNat = 16 := by
  obtain ⟨-, hmin, -⟩ := hcap
  have h16 : S.inLen.toNat = 16 := congrArg BitVec.toNat hin
  exact ⟨by omega, h16⟩

section Completion
variable (reversed : Bool) {s : State} {S : Snapshot} (hS : s.inflight = some S)
include hS

/-- A block and a key of 16 bytes: the processed block is delivered. -/
theorem blockCommand_delivers (hcap : capacityOk s.nIn) (hin : S.inLen = 16#32) (hk : S.keyLen = 16#8) :
    ∃ t, exec (blockCommand reversed) s = .next t ∧ t.status = ⟨false, true, false, 0#4, S.opcode⟩ ∧ t.outLen = 16#32 ∧
      t.outputIs (processBlock (inputBytes S) (blockSchedule reversed (bytes (keyWords S)))) := by
  have hok := bufferResult_blockCommand reversed s.nIn S
  rw [if_pos (oneBlock_in_range hcap hin), if_pos hk] at hok
  exact ⟨_, exec_buffer_ok hS (isWordCommand_blockCommand reversed) hok, rfl, rfl, finishBuffer_outputIs s S (by simp)⟩

/-- Any other input length: InputLengthRange, whatever the key length and the capacity. -/
theorem blockCommand_inputLengthRange (hin : S.inLen ≠ 16#32) :
    ∃ t, exec (blockCommand reversed) s = .next t ∧ t.status = ⟨false, true, true, 4#4, S.opcode⟩ ∧ t.outLen = 0#32 := by
  have herr := bufferResult_blockCommand reversed s.nIn S
  rw [if_neg fun ⟨_, h16⟩ => hin (BitVec.eq_of_toNat_eq h16)] at herr
  exact ⟨_, exec_buffer_error hS (isWordCommand_blockCommand reversed) herr, rfl, rfl⟩

/-- The input length right, the key length not: InvalidKeyLength. -/
theorem blockCommand_invalidKeyLength (hcap : capacityOk s.nIn) (hin : S.inLen = 16#32) (hk : S.keyLen ≠ 16#8) :
    ∃ t, exec (blockCommand reversed) s = .next t ∧ t.status = ⟨false, true, true, 1#4, S.opcode⟩ ∧ t.outLen = 0#32 := by
  have herr := bufferResult_blockCommand reversed s.nIn S
  rw [if_pos (oneBlock_in_range hcap hin), if_neg hk] at herr
  exact ⟨_, exec_buffer_error hS (isWordCommand_blockCommand reversed) herr, rfl, rfl⟩

end Completion

/-- Settles O29: the three completions in derivation order of the keys, and the rule's two ciphertexts. -/
theorem blockFwdCommandResult : Obligations.BlockFwdCommandResult :=
  ⟨decode_encode .blockFwd, fun _ _ => blockCommand_delivers false, fun _ _ => blockCommand_inputLengthRange false,
    fun _ _ => blockCommand_invalidKeyLength false, by decide, by decide⟩

/-- Settles O30: the three completions in reverse key order. BLOCK_REV undoes BLOCK_FWD by the self-inverse property, and
so takes BLOCK_FWD's ciphertext back to the standard block. -/
theorem blockRevCommandResult : Obligations.BlockRevCommandResult := by
  refine ⟨decode_encode .blockRev, fun _ _ => blockCommand_delivers true, fun _ _ => blockCommand_inputLengthRange true,
    fun _ _ => blockCommand_invalidKeyLength true, fun key block _ hlen => blockCipherSelfInverse block (expand key) hlen, ?_⟩
  obtain ⟨-, -, -, -, -, hstandard⟩ := blockFwdCommandResult
  rw [← hstandard]
  exact blockCipherSelfInverse _ _ (bytes_length _)

end Sys2Proof.Machine
end

section
/-! PROOFS. The ECB codec (spec/44_ecb_codec.md): padding (R190), split and join (R191, R192), the passes block by block
(R193 to R197), the codec's laws (R198), and what the commands ECB_ENC and ECB_DEC deliver (R199, R200). -/

namespace Sys2Proof.Machine

/-! ## Padding (R190) -/

/-- The pad of whole blocks is a block of its own. -/
theorem pad_of_whole_blocks {p : List Byte} (h : p.length % 16 = 0) : pad p = p ++ List.replicate 16 0x10#8 := by
  rw [pad, padLength, h]

/-- One byte short of whole blocks, the pad is one byte. -/
theorem pad_of_one_byte_short {p : List Byte} (h : p.length % 16 = 15) : pad p = p ++ [0x01#8] := by
  rw [pad, padLength, h]
  rfl

/-- Settles O16: the bounds of the pad length and the length of the padded buffer. -/
theorem paddingReachesBlockMultiple : Obligations.PaddingReachesBlockMultiple := by
  refine ⟨fun p => ?_, pad_of_whole_blocks rfl⟩
  obtain ⟨hmin, hmax⟩ := padLength_bounds p
  have hpositive : 0 < (pad p).length := by rw [pad_length]; omega
  exact ⟨hmin, hmax, rfl, pad_length p, hpositive, pad_length_mod p⟩

/-! ## The final byte and the check of the pad (R195, R196) -/

theorem lastByte_eq_getLast? (q : List Byte) : lastByte q = (q.getLast?.getD 0).toNat := by
  rw [lastByte, List.getLast?_eq_getElem?, List.getD_eq_getElem?_getD]

@[simp] theorem lastByte_append_singleton (q : List Byte) (n : Byte) : lastByte (q ++ [n]) = n.toNat := by
  rw [lastByte_eq_getLast?, List.getLast?_concat, Option.getD_some]

/-- A padded buffer ends in its pad length. -/
theorem lastByte_pad (p : List Byte) : lastByte (pad p) = padLength p := by
  obtain ⟨hmin, hmax⟩ := padLength_bounds p
  have hlast : (pad p).getLast? = some (BitVec.ofNat 8 (padLength p)) := by
    rw [pad, List.getLast?_append, List.getLast?_replicate, if_neg (by omega), Option.some_or]
  rw [lastByte_eq_getLast?, hlast, Option.getD_some, BitVec.toNat_ofNat, Nat.mod_eq_of_lt (by omega)]

theorem stripPad_ok {q : List Byte} (hmin : 1 ≤ lastByte q) (hmax : lastByte q ≤ 16) :
    stripPad q = .ok (q.take (q.length - lastByte q)) :=
  (stripPad_eq q).trans (if_pos ⟨hmin, hmax⟩)

theorem stripPad_invalid {q : List Byte} (h : lastByte q = 0 ∨ 16 < lastByte q) : stripPad q = .error .invalidPadding :=
  (stripPad_eq q).trans (if_neg (by omega))

theorem exists_stripPad_ok_iff (q : List Byte) : (∃ r, stripPad q = .ok r) ↔ 1 ≤ lastByte q ∧ lastByte q ≤ 16 := by
  rw [stripPad_eq]
  split <;> simp [*]

/-- A final byte n in 1 to 16 strips n bytes, itself among them. -/
theorem stripPad_append_singleton (q : List Byte) {n : Byte} (hmin : 1 ≤ n.toNat) (hmax : n.toNat ≤ 16) :
    stripPad (q ++ [n]) = .ok (q.take (q.length + 1 - n.toNat)) := by
  rw [stripPad_ok (by simpa using hmin) (by simpa using hmax), lastByte_append_singleton, List.length_append,
    List.length_singleton, List.take_append_of_le_length (by omega)]

/-- Stripping undoes padding. -/
theorem stripPad_pad (p : List Byte) : stripPad (pad p) = .ok p := by
  obtain ⟨hmin, hmax⟩ := padLength_bounds p
  rw [← lastByte_pad] at hmin hmax
  rw [stripPad_ok hmin hmax, lastByte_pad, pad_length, Nat.add_sub_cancel, pad, List.take_left]

/-- Settles O20: the check and what it strips are functions of the final byte. -/
theorem paddingCheckReadsOnlyFinalByte : Obligations.PaddingCheckReadsOnlyFinalByte := by
  refine ⟨fun q q' _ _ hlast => ?_, fun q n hmin hmax _ => stripPad_append_singleton q hmin hmax,
    fun q n h => stripPad_invalid (by simpa using h), stripPad_append_singleton _ (by decide) (by decide)⟩
  rw [exists_stripPad_ok_iff, exists_stripPad_ok_iff, lastByte_eq_getLast?, lastByte_eq_getLast?, hlast]

/-! ## Split and join (R191, R192) -/

/-- The first n blocks joined are the first 16n bytes. -/
theorem join_map_blockAt_range (q : List Byte) (n : Nat) : join ((List.range n).map (blockAt q)) = q.take (16 * n) := by
  induction n with
  | zero => rfl
  | succ n ih =>
    calc join ((List.range (n + 1)).map (blockAt q))
      _ = join ((List.range n).map (blockAt q)) ++ blockAt q n := by simp [join, List.range_succ]
      _ = q.take (16 * (n + 1)) := by rw [ih, blockAt, Nat.mul_succ, List.take_add]

theorem join_split {q : List Byte} (h : q.length % 16 = 0) : join (split q) = q := by
  rw [split, join_map_blockAt_range, List.take_of_length_le (by omega)]

theorem getElem?_split {q : List Byte} {j : Nat} (h : j < q.length / 16) : (split q)[j]? = some (blockAt q j) := by
  rw [split, List.getElem?_map, List.getElem?_range h, Option.map_some]

theorem split_join {blocks : List (List Byte)} (h : ∀ b ∈ blocks, b.length = 16) : split (join blocks) = blocks := by
  have hcount : (split (join blocks)).length = blocks.length := by
    rw [split_length, join_length blocks h, Nat.mul_div_cancel_left _ (by decide)]
  refine List.ext_getElem hcount fun j _ hj => ?_
  rw [← blockAt_join blocks h j hj]
  simp [split]

/-- Settles O17: both inverse laws, and each block by its position. -/
theorem joinUndoesSplit : Obligations.JoinUndoesSplit := by
  refine ⟨fun q h => ⟨join_split h, split_length q, fun j hj => getElem?_split hj, length_of_mem_split q⟩,
    fun blocks h => ⟨split_join h, fun j hj => ?_⟩⟩
  exact (List.getElem?_eq_getElem hj).trans (congrArg some (blockAt_join blocks h j hj).symm)

/-! ## The passes (R193, R195, R197) -/

/-- Settles O18: both passes are processBlocks, whose output block j is input block j processed. -/
theorem blocksAreIndependent : Obligations.BlocksAreIndependent := by
  have hencrypt (p key : List Byte) (j : Nat) (hj : j < (pad p).length / 16) :
      blockAt (encrypt p key) j = processBlock (blockAt (pad p) j) (expand key) :=
    blockAt_processBlocks (expand key) (pad p) j hj
  refine ⟨hencrypt, fun c key j _ hj => blockAt_processBlocks _ c j hj, fun p key j j' hj hj' hsame => ?_⟩
  rw [hencrypt p key j hj, hencrypt p key j' hj', hsame]

/-- A pass over joined blocks processes each of them. -/
theorem processBlocks_join (rks : List Word) {blocks : List (List Byte)} (h : ∀ b ∈ blocks, b.length = 16) :
    processBlocks rks (join blocks) = join (blocks.map fun b => processBlock b rks) := by
  rw [processBlocks, split_join h]

/-- A pass over a single block (R197). -/
theorem processBlocks_block (rks : List Word) {b : List Byte} (h : b.length = 16) :
    processBlocks rks b = processBlock b rks := by
  simpa [join] using processBlocks_join rks (blocks := [b]) (by simpa using h)

/-- The pass under the reversed schedule undoes the pass, block by block (R174). -/
theorem processBlocks_reverse_processBlocks (rks : List Word) {q : List Byte} (h : q.length % 16 = 0) :
    processBlocks rks.reverse (processBlocks rks q) = q := by
  have undo : ∀ b ∈ split q, processBlock (processBlock b rks) rks.reverse = b := fun b hb =>
    blockCipherSelfInverse b rks (length_of_mem_split q b hb)
  calc processBlocks rks.reverse (processBlocks rks q)
    _ = join ((split q).map fun b => processBlock (processBlock b rks) rks.reverse) := by
      rw [processBlocks.eq_def rks q, processBlocks_join _ (by simp), List.map_map]
      rfl
    _ = join (split q) := by rw [List.map_congr_left undo, List.map_id']
    _ = q := join_split h

/-! ## encrypt and decrypt (R193 to R195, R198) -/

theorem encrypt_length (p key : List Byte) : (encrypt p key).length = p.length + padLength p := by
  rw [encrypt, processBlocks_length _ _ (pad_length_mod p), pad_length]

theorem encrypt_length_mod (p key : List Byte) : (encrypt p key).length % 16 = 0 := by
  rw [encrypt_length, ← pad_length, pad_length_mod]

theorem decrypt_invalidLength {c : List Byte} (key : List Byte) (h : c.length = 0 ∨ c.length % 16 ≠ 0) :
    decrypt c key = .error .invalidCiphertextLength := by
  rw [decrypt_eq, if_neg]
  rw [cipherLengthOk_iff]
  omega

/-- For a legal length, decrypt is the pass under the reversed schedule and the check of the pad. -/
theorem decrypt_eq_stripPad {c : List Byte} (key : List Byte) (hpos : c.length ≠ 0) (hmod : c.length % 16 = 0) :
    decrypt c key = stripPad (processBlocks (expand key).reverse c) :=
  (decrypt_eq c key).trans (if_pos ((cipherLengthOk_iff c).mpr ⟨hpos, hmod⟩))

/-- R198 (a), for a key of any length. -/
theorem decrypt_encrypt (p key : List Byte) : decrypt (encrypt p key) key = .ok p := by
  have hpos : (encrypt p key).length ≠ 0 := by
    obtain ⟨hmin, -⟩ := padLength_bounds p
    rw [encrypt_length]
    omega
  calc decrypt (encrypt p key) key
    _ = stripPad (processBlocks (expand key).reverse (processBlocks (expand key) (pad p))) :=
      decrypt_eq_stripPad key hpos (encrypt_length_mod p key)
    _ = stripPad (pad p) := by rw [processBlocks_reverse_processBlocks _ (pad_length_mod p)]
    _ = .ok p := stripPad_pad p

/-- Decryption of one block that was enciphered is the check of the pad on that block. -/
theorem decrypt_processBlock {b : List Byte} (key : List Byte) (h : b.length = 16) :
    decrypt (processBlock b (expand key)) key = stripPad b := by
  rw [decrypt_eq_stripPad key (by simp) (by simp), processBlocks_block _ (processBlock_length b _),
    blockCipherSelfInverse b _ h]

/-- Settles O19: the length check, then the check of the pad on a pass as long as c. -/
theorem decryptOutcome : Obligations.DecryptOutcome := by
  intro c key
  refine ⟨decrypt_invalidLength key, fun hpos hmod => ?_⟩
  have hlen := processBlocks_length (expand key).reverse c hmod
  rw [decrypt_eq_stripPad key hpos hmod]
  refine ⟨hlen, stripPad_invalid, fun hmin hmax => ⟨stripPad_ok hmin hmax, ?_⟩⟩
  rw [List.length_take, hlen]
  omega

/-- Settles O21: the round trip, the length of the pad, and the two errors of decrypt. -/
theorem ecbCodecLaws : Obligations.EcbCodecLaws := by
  refine ⟨fun p key _ => decrypt_encrypt p key, fun p p' key key' hp hkey => hp ▸ hkey ▸ rfl, fun p key => ?_,
    fun c key h => decrypt_invalidLength key (by simpa using h), fun c key hne hmod hlast => ?_⟩
  · obtain ⟨hmin, hmax⟩ := padLength_bounds p
    rw [encrypt_length, Nat.add_sub_cancel_left]
    exact ⟨hmin, hmax, fun h => by rw [padLength, h]⟩
  · rw [decrypt_eq_stripPad key (by simpa using hne) hmod]
    exact stripPad_invalid hlast

/-! ## The commands ECB_ENC and ECB_DEC (R199, R200) -/

/-- A buffer command that ends in an error shows the host no output byte (R221). -/
theorem raiseError_outputIs (s : State) (S : Snapshot) (e : CmdError) : (s.raiseError S e).outputIs [] :=
  ⟨rfl, fun _ => visibleOut_above (Nat.zero_le _)⟩

section Completion
variable {s : State} {S : Snapshot} (hS : s.inflight = some S)
include hS

/-- The completion of a buffer command that succeeds: its output always fits OUT_BUF (R81). -/
theorem exec_buffer_delivers {i : Instr} (hw : isWordCommand i = false) (hcap : capacityOk s.nIn) {b : List Byte}
    (hb : bufferResult i s.nIn S = .ok b) :
    ∃ t, exec i s = .next t ∧ t.status = ⟨false, true, false, 0#4, S.opcode⟩ ∧ t.outputIs b := by
  obtain ⟨h16, hmin, hmax⟩ := hcap
  have hfits := bufferResult_length i s.nIn S b h16 hmin hb
  exact ⟨_, exec_buffer_ok hS hw hb, rfl, finishBuffer_outputIs s S (by omega)⟩

theorem ecbEnc_delivers (hcap : capacityOk s.nIn) (hin : S.inLen.toNat ≤ s.nIn) (hk : S.keyLen = 16#8) :
    ∃ t, exec .ecbEnc s = .next t ∧ t.status = ⟨false, true, false, 0#4, S.opcode⟩ ∧
      t.outputIs (encrypt (inputBytes S) (bytes (keyWords S))) :=
  exec_buffer_delivers hS rfl hcap ((ecbEncResult_eq s.nIn S).trans (by rw [if_pos hin, if_pos hk]))

theorem ecbDec_raises {e : CmdError} (he : ecbDecResult s.nIn S = .error e) :
    ∃ t, exec .ecbDec s = .next t ∧ t.status = ⟨false, true, true, errCode e, S.opcode⟩ ∧ t.outputIs [] :=
  ⟨_, exec_buffer_error hS rfl he, rfl, raiseError_outputIs s S e⟩

end Completion

/-- With a legal key length the errors come in the order of decrypt, so ECB_DEC computes decrypt. -/
theorem ecbDecResult_eq_decrypt {nIn : Nat} {S : Snapshot} (hin : S.inLen.toNat ≤ nIn) (hk : S.keyLen = 16#8) :
    ecbDecResult nIn S = decrypt (inputBytes S) (bytes (keyWords S)) := by
  rw [ecbDecResult_eq, if_pos hin, if_pos hk, decrypt_eq]
  simp only [cipherLengthOk_iff, inputBytes_length]

/-- Settles O31: the three completions by the input range and the key length, the rule's pads and its example. -/
theorem ecbEncCommandResult : Obligations.EcbEncCommandResult := by
  refine ⟨decode_encode .ecbEnc, fun s S hS hcap hin hk => ?_, fun s S hS hin => ?_, fun s S hS hin hk => ?_,
    pad_of_whole_blocks rfl, fun p h => pad_of_whole_blocks (by rw [h]), fun p h => pad_of_one_byte_short (by rw [h]),
    by decide⟩
  · obtain ⟨t, hexec, hstatus, hlen, hbytes⟩ := ecbEnc_delivers hS hcap hin hk
    have hpadded : t.outLen.toNat = S.inLen.toNat + (16 - S.inLen.toNat % 16) := by
      rw [hlen, encrypt_length, padLength, inputBytes_length]
    obtain ⟨h16, -, -⟩ := hcap
    exact ⟨t, hexec, hstatus, by omega, by omega, hlen, hbytes⟩
  · have herr : ecbEncResult s.nIn S = .error .inputLengthRange :=
      (ecbEncResult_eq s.nIn S).trans (if_neg (Nat.not_le.mpr hin))
    exact ⟨_, exec_buffer_error hS rfl herr, rfl, rfl⟩
  · have herr : ecbEncResult s.nIn S = .error .invalidKeyLength :=
      (ecbEncResult_eq s.nIn S).trans (by rw [if_pos hin, if_neg hk])
    exact ⟨_, exec_buffer_error hS rfl herr, rfl, rfl⟩

/-- Settles O32: with a legal key length the outcomes of decrypt, and the errors in their order; the rule's ciphertexts are
those of ECB_ENC and of one block, taken back. -/
theorem ecbDecCommandResult : Obligations.EcbDecCommandResult := by
  refine ⟨decode_encode .ecbDec, fun s S hS hcap hin hpos hmod hk => ?_, fun s S hS hin => ?_, fun s S hS hin hbad => ?_,
    fun s S hS hin hpos hmod hk => ?_, fun key _ => decrypt_encrypt [] key, fun key _ => ?_, ?_⟩
  · rw [← inputBytes_length S] at hpos hmod ⊢
    obtain ⟨-, houtcome⟩ := decryptOutcome (inputBytes S) (bytes (keyWords S))
    obtain ⟨hlen, hinvalid, hvalid⟩ := houtcome hpos hmod
    rw [hlen] at hinvalid hvalid
    refine ⟨fun hmin hmax => ?_, fun hn => ecbDec_raises hS ((ecbDecResult_eq_decrypt hin hk).trans (hinvalid hn))⟩
    obtain ⟨hok, hstripped⟩ := hvalid hmin hmax
    obtain ⟨t, hexec, hstatus, hlength, hbytes⟩ :=
      exec_buffer_delivers hS (i := .ecbDec) rfl hcap ((ecbDecResult_eq_decrypt hin hk).trans hok)
    exact ⟨t, hexec, hstatus, hlength.trans hstripped, hlength, hbytes⟩
  · exact ecbDec_raises hS ((ecbDecResult_eq s.nIn S).trans (if_neg (Nat.not_le.mpr hin)))
  · exact ecbDec_raises hS ((ecbDecResult_eq s.nIn S).trans (by rw [if_pos hin, if_neg (by omega)]))
  · exact ecbDec_raises hS ((ecbDecResult_eq s.nIn S).trans (by rw [if_pos hin, if_pos ⟨hpos, hmod⟩, if_neg hk]))
  · exact (decrypt_processBlock key rfl).trans (stripPad_append_singleton _ (by decide) (by decide))
  · obtain ⟨-, -, -, -, -, -, -, hexample⟩ := ecbEncCommandResult
    rw [← hexample]
    exact decrypt_encrypt _ _

/-- Settles O60: the ciphertext of fewer than N_IN bytes still fits the input, and decrypt takes it back. -/
theorem ecbDecDeliversWhatEcbEncTook : Obligations.EcbDecDeliversWhatEcbEncTook := by
  intro s s' S S' hS hS' hcap hcap' hk hk' hin hn hkey
  obtain ⟨t, hexec, hstatus, hout⟩ := ecbEnc_delivers hS hcap (Nat.le_of_lt hin) hk
  refine ⟨t, _, hexec, hout, by rw [hstatus], fun hinput => ?_⟩
  have hfits : S'.inLen.toNat ≤ s'.nIn := by
    obtain ⟨h16, -, -⟩ := hcap
    rw [← inputBytes_length S', hinput, encrypt_length, padLength, inputBytes_length]
    omega
  have hok : ecbDecResult s'.nIn S' = .ok (inputBytes S) := by
    rw [ecbDecResult_eq_decrypt hfits hk', hkey, hinput]
    exact decrypt_encrypt _ _
  obtain ⟨t', hexec', hstatus', hout'⟩ := exec_buffer_delivers hS' (i := .ecbDec) rfl hcap' hok
  exact ⟨t', hexec', hout', by rw [hstatus']⟩

end Sys2Proof.Machine
end

section
/-! PROOFS. Errors and protocol faults (spec/60_exceptions.md): the error code each command reports and the order of its
checks (R220, R224), what an error leaves (R221, R222), and the fault mark until reset (R230). -/

namespace Sys2Proof.Machine

/-! ## The code a buffer command reports (R220, R224) -/

/-- ERRCODE after a buffer command with this outcome: the code of its error, 0 on success. -/
def reportedCode : Except CmdError (List Byte) → BitVec 4
  | .ok _ => 0#4
  | .error e => errCode e

@[simp] theorem reportedCode_ok (b : List Byte) : reportedCode (.ok b) = 0#4 := rfl

@[simp] theorem reportedCode_error (e : CmdError) : reportedCode (.error e) = errCode e := rfl

/-- The completion of a buffer command writes the code of what the command computes on the snapshot (R79). -/
theorem exec_buffer_errcode {i : Instr} {s t : State} {S : Snapshot} (hS : s.inflight = some S)
    (hw : isWordCommand i = false) (h : exec i s = .next t) :
    t.status.errcode = reportedCode (bufferResult i s.nIn S) := by
  cases hres : bufferResult i s.nIn S with
  | ok b =>
    obtain rfl := Host.Outcome.next.inj ((exec_buffer_ok hS hw hres).symm.trans h)
    rfl
  | error e =>
    obtain rfl := Host.Outcome.next.inj ((exec_buffer_error hS hw hres).symm.trans h)
    rfl

theorem reportedCode_keyExpandResult (S : Snapshot) :
    reportedCode (keyExpandResult S) = if S.keyLen ≠ 16#8 then 1#4 else 0#4 := by
  simp only [keyExpandResult_eq, apply_ite reportedCode, reportedCode_ok, reportedCode_error, errCode, ne_eq, ite_not]

/-- BLOCK_FWD and BLOCK_REV make the same checks in the same order (R175, R176). -/
theorem reportedCode_blockCommand (reversed : Bool) (nIn : Nat) (S : Snapshot) :
    reportedCode (bufferResult (blockCommand reversed) nIn S)
      = if nIn < S.inLen.toNat ∨ S.inLen.toNat ≠ 16 then 4#4 else if S.keyLen ≠ 16#8 then 1#4 else 0#4 := by
  simp only [bufferResult_blockCommand, apply_ite reportedCode, reportedCode_ok, reportedCode_error, errCode,
    ← Nat.not_le, ne_eq, ← not_and_or, ite_not]

theorem reportedCode_ecbEncResult (nIn : Nat) (S : Snapshot) :
    reportedCode (ecbEncResult nIn S)
      = if nIn < S.inLen.toNat then 4#4 else if S.keyLen ≠ 16#8 then 1#4 else 0#4 := by
  simp only [ecbEncResult_eq, apply_ite reportedCode, reportedCode_ok, reportedCode_error, errCode,
    ← Nat.not_le, ne_eq, ite_not]

/-- The check of the pad reads the final byte only (R196). -/
theorem reportedCode_stripPad (q : List Byte) :
    reportedCode (stripPad q) = if lastByte q = 0 ∨ 16 < lastByte q then 3#4 else 0#4 := by
  by_cases h : lastByte q = 0 ∨ 16 < lastByte q
  · rw [stripPad_invalid h, if_pos h, reportedCode_error, errCode]
  · rw [stripPad_ok (by omega) (by omega), if_neg h, reportedCode_ok]

/-- The decryption pass of a whole number of blocks is as long as the input, so byte IN_LEN - 1 is its final byte (R195). -/
theorem lastByte_processBlocks_inputBytes (rks : List Word) {S : Snapshot} (h : S.inLen.toNat % 16 = 0) :
    lastByte (processBlocks rks (inputBytes S)) = ((processBlocks rks (inputBytes S)).getD (S.inLen.toNat - 1) 0).toNat := by
  rw [lastByte, processBlocks_length _ _ (by rwa [inputBytes_length]), inputBytes_length]

theorem reportedCode_ecbDecResult (nIn : Nat) (S : Snapshot) :
    reportedCode (ecbDecResult nIn S)
      = if nIn < S.inLen.toNat then 4#4
        else if S.inLen.toNat = 0 ∨ S.inLen.toNat % 16 ≠ 0 then 2#4
        else if S.keyLen ≠ 16#8 then 1#4
        else
          let q := processBlocks (expand (bytes (keyWords S))).reverse (inputBytes S)
          let n := (q.getD (S.inLen.toNat - 1) 0).toNat
          if n = 0 ∨ 16 < n then 3#4 else 0#4 := by
  rw [ecbDecResult_eq]
  by_cases hrange : S.inLen.toNat ≤ nIn
  case neg => rw [if_neg hrange, if_pos (Nat.not_le.mp hrange), reportedCode_error, errCode]
  by_cases hlen : S.inLen.toNat = 0 ∨ S.inLen.toNat % 16 ≠ 0
  case pos =>
    rw [if_pos hrange, if_neg (fun ⟨hpos, hwhole⟩ => hlen.elim hpos (absurd hwhole)), if_neg (Nat.not_lt.mpr hrange),
      if_pos hlen, reportedCode_error, errCode]
  obtain ⟨hpos, hwhole⟩ : S.inLen.toNat ≠ 0 ∧ S.inLen.toNat % 16 = 0 := by omega
  rw [if_pos hrange, if_pos ⟨hpos, hwhole⟩, if_neg (Nat.not_lt.mpr hrange), if_neg hlen]
  by_cases hkey : S.keyLen = 16#8
  case neg => rw [if_neg hkey, if_pos hkey, reportedCode_error, errCode]
  rw [if_pos hkey, if_neg (not_not.mpr hkey), reportedCode_stripPad, lastByte_processBlocks_inputBytes _ hwhole]

/-- Settles O36: a completion reports the code of what its command computes, and each command's checks come in its order;
an illegal word completes as the illegal command. -/
theorem errorPriority : Obligations.ErrorPriority := by
  intro s t S hS _
  refine ⟨fun h => ?_, fun h => ?_, fun h => ?_, fun h => ?_, fun hr hb hill h => ?_⟩
  · exact (exec_buffer_errcode hS rfl h).trans (reportedCode_keyExpandResult S)
  · obtain h | h := h
    · exact (exec_buffer_errcode hS rfl h).trans (reportedCode_blockCommand false s.nIn S)
    · exact (exec_buffer_errcode hS rfl h).trans (reportedCode_blockCommand true s.nIn S)
  · exact (exec_buffer_errcode hS rfl h).trans (reportedCode_ecbEncResult s.nIn S)
  · exact (exec_buffer_errcode hS rfl h).trans (reportedCode_ecbDecResult s.nIn S)
  · cases hd : decode S.cmd with
    | ok i => exact absurd hd (hill i)
    | error e =>
      obtain rfl := Host.Outcome.next.inj ((coreStep_of_decode_error hr hb hS hd).symm.trans h)
      rfl

/-! ## What an error leaves (R221, R222) -/

theorem errCode_ne_zero (e : CmdError) : errCode e ≠ 0#4 := by
  cases e <;> decide

/-- A command that completes with ERR = 1 is a buffer command that raised an error (R221). -/
theorem exec_err {i : Instr} {s t : State} {S : Snapshot} (hS : s.inflight = some S) (h : exec i s = .next t)
    (herr : t.status.err = true) : ∃ e, t = s.raiseError S e := by
  obtain ⟨S', hS', ⟨-, rfl⟩ | ⟨-, b, -, rfl⟩ | ⟨-, e, -, rfl⟩⟩ := exec_cases i s t h
  · exact absurd herr nofun
  · exact absurd herr nofun
  · obtain rfl := Option.some.inj (hS.symm.trans hS')
    exact ⟨e, rfl⟩

/-- Settles O37: the one completion with an error, field by field. -/
theorem errorLeavesNoOutput : Obligations.ErrorLeavesNoOutput := by
  intro i s t S hS h herr
  obtain ⟨e, rfl⟩ := exec_err hS h herr
  exact ⟨⟨errCode e, errCode_ne_zero e, rfl⟩, rfl, fun _ => visibleOut_above (Nat.zero_le _), rfl, rfl, rfl, rfl, rfl, rfl⟩

/-! ## The fault mark (R230) -/

/-- With the fault mark set, only a turn of the reset input is taken (log 8). -/
theorem step_of_fault {s : State} (hf : s.fault = true) (h : ∀ level rest, s.inputs ≠ .resetPin level :: rest) :
    step s = .fault .protocolFault := by
  unfold step
  split
  · rw [if_pos hf]
  · rename_i turn rest hi
    cases turn with
    | resetPin level => exact absurd hi (h level rest)
    | coreWork | coreDone | access a => simp [hf, Turn.isResetPin]

/-- The reset input keeps the fault mark, except where it is asserted anew (R250, log 9). -/
theorem drivePin_fault (s : State) (level : Bool) :
    (s.drivePin level).fault = s.fault ∨ (level = true ∧ s.rst = false) := by
  cases hr : s.rst <;> cases level <;> simp [State.drivePin, hr]

/-- Settles O45: the turn that goes on is the reset input's, which clears the mark by asserting reset only. -/
theorem faultMarkStaysUntilReset : Obligations.FaultMarkStaysUntilReset := by
  refine ⟨fun s t hf h => ?_, fun s hf hturn => step_of_fault hf hturn⟩
  obtain ⟨_, hsafe, _⟩ | ⟨_, _, hsafe, _⟩ | ⟨_, _, hsafe, _⟩ | ⟨_, _, _, hsafe, _⟩ | ⟨level, rest, hi, rfl⟩ :=
    step_cases s t h
  case inr.inr.inr.inr =>
    exact ⟨level, rest, hi, (drivePin_fault { s with inputs := rest } level).imp_left fun hkept => hkept.trans hf⟩
  all_goals exact absurd (hf.symm.trans hsafe) nofun

end Sys2Proof.Machine
end

section
/-! PROOFS. Reset and hazards (spec/70_reset_and_hazards.md): what the reset input leaves (R250, R251), that DONE is never
that of an earlier command (R257), and that a BUSY state is never final (R259). -/

namespace Sys2Proof.Machine

variable {s t : State} {S : Snapshot}

/-! ## The reset input (R250, R251) -/

/-- Asserting and deasserting the reset input is the reset of R40. -/
theorem drivePin_assert_release (hr : s.rst = false) : (s.drivePin true).drivePin false = s.resetCore := by
  have asserted : s.drivePin true = { s.resetCore with rst := true } := by simp [State.drivePin, hr]
  rw [asserted]
  rfl

theorem hostAccess_of_reset (hr : s.rst = true) (a : HostAccess) : hostAccess a s = s.markFault := by
  simp [hostAccess, judge, hr]

theorem coreStep_of_reset (hr : s.rst = true) : coreStep s = .next s := by
  simp [coreStep, hr]

/-- Settles O57: the two turns of the reset input together are one reset; the port and the core see its level. -/
theorem resetPinAbortsAndClears : Obligations.ResetPinAbortsAndClears := by
  refine ⟨fun s hr => ?_, fun s hr => ⟨hostAccess_of_reset hr, coreStep_of_reset hr⟩⟩
  rw [drivePin_assert_release hr]
  exact ⟨rfl, rfl, rfl, rfl, rfl, rfl, rfl, rfl, rfl, rfl, Memory.read_nil, Memory.read_nil, rfl, rfl, rfl, rfl, rfl⟩

/-! ## One turn while a command is in flight -/

/-- STATUS as the completion of the command that S holds leaves it, success or error (R79). -/
def State.hasCompleted (t : State) (S : Snapshot) : Prop :=
  t.status.busy = false ∧ t.status.done = true ∧ t.status.opcode = S.opcode

/-- The command in flight in s is still in flight in t, with the same STATUS and the same turns to come. -/
def State.stillRuns (s t : State) : Prop :=
  t.status = s.status ∧ t.inflight = s.inflight ∧ t.inputs = s.inputs

theorem busy_of_inflight (h : s.Inv) (hS : s.inflight = some S) : s.status.busy = true := by
  rw [h.busy_iff, hS]
  rfl

/-- R29: BUSY and DONE are never both set. -/
theorem Status.done_of_legal_of_busy {st : Status} (hl : st.legal = true) (hb : st.busy = true) : st.done = false := by
  cases hd : st.done with
  | false => rfl
  | true => cases he : st.err <;> simp [Status.legal, hb, hd, he] at hl

/-- R79: a completing core step is enabled in every state with a command in flight, legal or illegal. -/
theorem coreStep_completes (h : s.Inv) (hS : s.inflight = some S) :
    ∃ t, coreStep s = .next t ∧ t.hasCompleted S := by
  have hb := busy_of_inflight h hS
  have hr : s.rst = false := Bool.eq_false_iff.mpr fun hr => absurd (hS.symm.trans (h.quiet hr)) nofun
  cases hd : decode S.cmd with
  | ok i =>
    obtain ⟨completes, -⟩ := completionDependsOnSnapshotOnly
    obtain ⟨t, ht, hbusy, hdone, hop, -⟩ := completes i s S hS
    exact ⟨t, (coreStep_of_decode_ok hr hb hS hd).trans ht, hbusy, hdone, hop⟩
  | error e => exact ⟨_, coreStep_of_decode_error hr hb hS hd, rfl, rfl, rfl⟩

/-- At BUSY = 1 a host access is a read or a protocol fault (R54, R230), so the command stays in flight. -/
theorem hostAccess_stillRuns (hb : s.status.busy = true) (a : HostAccess) : s.stillRuns (hostAccess a s) := by
  obtain ⟨f, d, n, ht⟩ | ⟨v, -, -, hidle, -⟩ | ⟨kl, il, ar, hidle, -⟩ | ⟨j, v, -, hidle, -⟩ | ⟨i, v, -, -, hidle, -⟩ :=
    hostAccess_writes a s
  case inl => rw [ht]; exact ⟨rfl, rfl, rfl⟩
  all_goals exact absurd (hb.symm.trans hidle) nofun

/-- The reset input aborts the command where it is asserted anew, and leaves it alone otherwise (R251, log 9). -/
theorem drivePin_stillRuns_or_idle (s : State) (level : Bool) :
    s.stillRuns (s.drivePin level) ∨ (s.drivePin level).status.busy = false := by
  obtain hd | ⟨-, hd⟩ | hd := drivePin_cases s level <;> rw [hd]
  · exact .inl ⟨rfl, rfl, rfl⟩
  · exact .inr rfl
  · exact .inl ⟨rfl, rfl, rfl⟩

/-- Everything a turn can do to the command in flight: complete it, leave it in flight, or abort it by reset. -/
theorem takeTurn_of_inflight (h : s.Inv) (hS : s.inflight = some S) (turn : Turn) :
    ∃ t, takeTurn turn s = .next t ∧
      (t.hasCompleted S ∨ s.stillRuns t ∨ (∃ level, turn = .resetPin level) ∧ t.status.busy = false) := by
  cases turn with
  | coreWork => exact ⟨s, rfl, .inr (.inl ⟨rfl, rfl, rfl⟩)⟩
  | coreDone =>
    obtain ⟨t, ht, completed⟩ := coreStep_completes h hS
    exact ⟨t, ht, .inl completed⟩
  | access a => exact ⟨_, rfl, .inr (.inl (hostAccess_stillRuns (busy_of_inflight h hS) a))⟩
  | resetPin level =>
    exact ⟨_, rfl, .inr ((drivePin_stillRuns_or_idle s level).imp_right fun idle => ⟨⟨level, rfl⟩, idle⟩)⟩

/-- The invariant does not speak of the turns to come, so a turn is taken in a state that meets it. -/
theorem inv_withTurns (h : s.Inv) (rest : List Turn) : { s with inputs := rest }.Inv :=
  inv_withSurroundings h s.fault rest s.readData s.draws

/-! ## No stale DONE (R257) -/

/-- Settles O43: the turn that is due completes the command or leaves it in flight, where BUSY = 1 leaves DONE = 0. -/
theorem noStaleDone : Obligations.NoStaleDone := by
  refine ⟨fun s v => ⟨rfl, rfl⟩, fun s t S h hS hturn hstep => ?_⟩
  have hf : s.fault = false :=
    Bool.eq_false_iff.mpr fun hf => absurd ((step_of_fault hf hturn).symm.trans hstep) nofun
  have hb := busy_of_inflight h hS
  cases hi : s.inputs with
  | nil =>
    obtain ⟨u, hu, completed⟩ := coreStep_completes h hS
    obtain rfl := Host.Outcome.next.inj (hu.symm.trans ((step_of_no_turn hf hi).symm.trans hstep))
    exact .inr completed
  | cons turn rest =>
    obtain ⟨u, hu, outcome⟩ := takeTurn_of_inflight (inv_withTurns h rest) hS turn
    obtain rfl := Host.Outcome.next.inj (hu.symm.trans ((step_of_turn hf hi).symm.trans hstep))
    obtain completed | ⟨hstatus, hflight, -⟩ | ⟨⟨level, rfl⟩, -⟩ := outcome
    · exact .inr completed
    · rw [hstatus, hflight]
      exact .inl ⟨hb, Status.done_of_legal_of_busy h.flags hb, hS⟩
    · exact absurd hi (hturn level rest)

/-! ## A BUSY state is never final (R259) -/

/-- A run of one step more begins with that step. -/
theorem run_succ_of_step (hstep : step s = .next t) (k : Nat) :
    Host.Core.run core (k + 1) s = Host.Core.run core k t := by
  have hcore : core.step s = .next t := hstep
  simp only [Host.Core.run, hcore]

/-- Settles O42, by induction on the turns to come: each one ends the command or faults, or leaves a BUSY state with one
turn less, and with no turn left the core completes. -/
theorem busyStateAlwaysCompletes : Obligations.BusyStateAlwaysCompletes := by
  intro s h hf hb
  obtain ⟨S, hS⟩ : ∃ S, s.inflight = some S := Option.isSome_iff_exists.mp (h.busy_iff.symm.trans hb)
  induction hi : s.inputs generalizing s with
  | nil =>
    obtain ⟨t, ht, idle, -⟩ := coreStep_completes h hS
    exact ⟨1, t, le_refl 1, run_succ_of_step ((step_of_no_turn hf hi).trans ht) 0, .inl idle⟩
  | cons turn rest ih =>
    obtain ⟨t, ht, outcome⟩ := takeTurn_of_inflight (inv_withTurns h rest) hS turn
    have hstep : step s = .next t := (step_of_turn hf hi).trans ht
    by_cases hend : t.status.busy = false ∨ t.fault = true
    · exact ⟨1, t, by simp, run_succ_of_step hstep 0, hend⟩
    · obtain ⟨hbt, hft⟩ : t.status.busy = true ∧ t.fault = false := by simpa using hend
      obtain ⟨idle, -⟩ | ⟨-, hflight, hrest⟩ | ⟨-, idle⟩ := outcome
      · exact absurd (hbt.symm.trans idle) nofun
      · obtain ⟨k, u, hk, hrun, hu⟩ :=
          ih t (everyStepKeepsInvariant s t h hstep) hft hbt (hflight.trans hS) hrest
        exact ⟨k + 1, u, Nat.succ_le_succ hk, (run_succ_of_step hstep k).trans hrun, hu⟩
      · exact absurd (hbt.symm.trans idle) nofun

end Sys2Proof.Machine
end
